-- ==== Sys2Proof/Config.lean ====
section
/-! DEFINITION. What this hardware fixes (the implementation parameters of 00_scope.md A4) and the values the spec leaves
open, which are constants without a body: nothing can be proved of their value. -/

namespace Sys2Proof.Config

/-- Operand width in bits of every value and configuration register (00_scope.md R7). -/
abbrev W : Nat := 256

/-- The Montgomery radix R = 2^W (40_field_montgomery.md R100). -/
abbrev R : Nat := 2 ^ W

/-- Number of value registers (00_scope.md R8). -/
abbrev NV : Nat := 16

/-- Number of point registers, NV / 2 (00_scope.md R8). -/
abbrev NPAIR : Nat := 8

/-- Bus words of one W-bit register, W / 32 (20_memory.md R62). -/
abbrev WORDS : Nat := 8

/-- The ID register's constant: block identifier and revision 0xEC01, then W in the low half (10_state.md R31). -/
def idValue : BitVec 32 := 0xEC01#16 ++ BitVec.ofNat 16 W

/-- FREE VALUE, log 1 (00_scope.md R10, LAT): the number of host steps between the acceptance of the n-th accepted
command and its completion. Any finite number; no body. -/
opaque latency : Nat → Nat

/-- FREE VALUE, log 5: which 4 KiB page of the platform's bus holds the register window. -/
opaque basePage : Nat

/-- BASE, the bus address of the window's first byte, 4 KiB aligned (00_scope.md R9). -/
def base : Nat := basePage * 4096

/-- FREE VALUE, log 5: the platform's number of the interrupt line the block drives (60_exceptions.md R177). -/
opaque irqLine : Nat

end Sys2Proof.Config
end

