-- ==== Sys2Proof/Word.lean ====
section
/-! DEFINITION. The machine's words: bus words, window offsets, register values, bytes. -/

namespace Sys2Proof

/-- A 32-bit bus word or command word (00_scope.md R14, 30_encoding.md R80). -/
abbrev Word := BitVec 32

/-- A byte offset into the 4 KiB register window (20_memory.md R60). -/
abbrev Offset := BitVec 12

/-- The contents of a value or configuration register: an unsigned integer in [0, 2^W) (10_state.md R21). -/
abbrev Value := BitVec Config.W

/-- One byte lane of a bus word (20_memory.md R67). -/
abbrev Byte := BitVec 8

/-- The modulus a command's MS bit selects (40_field_montgomery.md R101): MS = 0 selects P, MS = 1 selects N. -/
inductive ModSel
  | p
  | n
deriving DecidableEq, Repr

end Sys2Proof
end

