-- ==== Sys2Proof/Syntax.lean ====
section
/-! DEFINITION. The nine commands (30_encoding.md R84), one constructor per row of the opcode table. An operand is what the
spec's format lets it be and nothing else: a value-register number is below 16 and a pair number below 8 by its type. -/

namespace Sys2Proof

/-- A command of the block (30_encoding.md R84). D comes first, then the sources in the order A, B, then the modulus
select. -/
inductive Instr
  /-- `nop`: no operation (44_system.md R160). -/
  | nop
  /-- `mmul.ms vD, vA, vB`: Montgomery modular multiply (40_field_montgomery.md R104). -/
  | mmul (d a b : Fin 16) (ms : ModSel)
  /-- `fsqr.ms vD, vA`: Montgomery square (40_field_montgomery.md R105). -/
  | fsqr (d a : Fin 16) (ms : ModSel)
  /-- `mr2.ms vD`: the Montgomery constant R² mod m (40_field_montgomery.md R106). -/
  | mr2 (d : Fin 16) (ms : ModSel)
  /-- `minv.ms vD, vA`: modular inverse (41_modular_inverse.md R121). -/
  | minv (d a : Fin 16) (ms : ModSel)
  /-- `padd qD, qA, qB`: point addition (42_curve_group.md R135). -/
  | padd (d a b : Fin 8)
  /-- `pdbl qD, qA`: point doubling (42_curve_group.md R136). -/
  | pdbl (d a : Fin 8)
  /-- `pmul qD, qA, vB`: scalar multiplication, qD <- V[B] · Q[A] (43_scalar_multiply.md R151). -/
  | pmul (d a : Fin 8) (b : Fin 16)
  /-- `pchk qA`: point membership test (42_curve_group.md R134). -/
  | pchk (a : Fin 8)
deriving DecidableEq, Repr

end Sys2Proof
end

