-- ==== Sys2Proof/WellFormed.lean ====
section
/-! DEFINITION. Which command words are well formed: the predicate `legal` of 30_encoding.md R86, written from its own
pseudocode and apart from the decoder. A term of `Instr` needs no check of its own: its operands are in range by their
types. -/

namespace Sys2Proof

/-- `legal(w)` of 30_encoding.md R86. -/
def legal (w : Word) : Bool :=
  let op := w.extractLsb' 0 8
  let d := w.extractLsb' 8 4
  let a := w.extractLsb' 12 4
  let b := w.extractLsb' 16 4
  let ms := w.extractLsb' 20 1
  if w.extractLsb' 21 11 != 0 then false
  else
    match op.toNat with
    | 0x00 => d == 0 && a == 0 && b == 0 && ms == 0
    | 0x01 => true
    | 0x02 => b == 0
    | 0x04 => b == 0
    | 0x03 => a == 0 && b == 0
    | 0x10 => ms == 0 && decide (d < 8) && decide (a < 8) && decide (b < 8)
    | 0x11 => ms == 0 && decide (d < 8) && decide (a < 8) && b == 0
    | 0x12 => ms == 0 && decide (d < 8) && decide (a < 8)
    | 0x13 => ms == 0 && d == 0 && decide (a < 8) && b == 0
    | _ => false

end Sys2Proof
end

