-- ==== Sys2Proof/Decode.lean ====
section
/-! DEFINITION. The decoder (total on any bytes, refusing by name), then the encoder, then the match and mask table
(30_encoding.md R81-R89). -/

namespace Sys2Proof

/-- The fields of a command word (30_encoding.md R81). -/
structure Fields where
  op : BitVec 8
  d : BitVec 4
  a : BitVec 4
  b : BitVec 4
  ms : BitVec 1
  rsv : BitVec 11
deriving DecidableEq, Repr

/-- The format of 30_encoding.md R81, read from a word: OP[7:0], D[11:8], A[15:12], B[19:16], MS[20], RSV[31:21]. -/
def fields (w : Word) : Fields :=
  { op := w.extractLsb' 0 8
    d := w.extractLsb' 8 4
    a := w.extractLsb' 12 4
    b := w.extractLsb' 16 4
    ms := w.extractLsb' 20 1
    rsv := w.extractLsb' 21 11 }

/-- Why bytes are no command (30_encoding.md R87). Which of several reasons is named is not observable: every illegal word
completes with the one code IllegalCommand (log 14). -/
inductive Illegal
  /-- RSV[31:21] is not 0. -/
  | reservedBits
  /-- The opcode is none of the nine. -/
  | reservedOpcode
  /-- A field the opcode does not use is not 0. -/
  | unusedField
  /-- MS = 1 on a point command. -/
  | modulusOnPoint
  /-- A pair field is in 8..15 (30_encoding.md R82). -/
  | pairRange
  /-- Fewer than four bytes: no command word. -/
  | truncated
deriving DecidableEq, Repr

/-- A field that names a value register (30_encoding.md R82). -/
def valueOperand (f : BitVec 4) : Fin 16 := f.toFin

/-- A field that names a pair: its bit 3 must be 0 (30_encoding.md R82). -/
def pairOperand (f : BitVec 4) : Except Illegal (Fin 8) :=
  if h : f.toNat < 8 then .ok ⟨f.toNat, h⟩ else .error .pairRange

/-- The MS field (30_encoding.md R81). -/
def modSelOperand (f : BitVec 1) : ModSel :=
  if f = 0 then .p else .n

/-- A field the opcode does not use must be 0 (30_encoding.md R84, R87). -/
def unused {k : Nat} (f : BitVec k) : Except Illegal Unit :=
  if f = 0 then .ok () else .error .unusedField

/-- MS must be 0 on a point command (30_encoding.md R84, R87). -/
def noModSel (f : BitVec 1) : Except Illegal Unit :=
  if f = 0 then .ok () else .error .modulusOnPoint

/-- The instruction whose fields are `f`, when RSV is 0 (30_encoding.md R84). -/
def decodeFields (f : Fields) : Except Illegal Instr :=
  match f.op.toNat with
  | 0x00 => do
    unused f.d
    unused f.a
    unused f.b
    unused f.ms
    .ok .nop
  | 0x01 => .ok (.mmul (valueOperand f.d) (valueOperand f.a) (valueOperand f.b) (modSelOperand f.ms))
  | 0x02 => do
    unused f.b
    .ok (.fsqr (valueOperand f.d) (valueOperand f.a) (modSelOperand f.ms))
  | 0x03 => do
    unused f.a
    unused f.b
    .ok (.mr2 (valueOperand f.d) (modSelOperand f.ms))
  | 0x04 => do
    unused f.b
    .ok (.minv (valueOperand f.d) (valueOperand f.a) (modSelOperand f.ms))
  | 0x10 => do
    noModSel f.ms
    let d ← pairOperand f.d
    let a ← pairOperand f.a
    let b ← pairOperand f.b
    .ok (.padd d a b)
  | 0x11 => do
    noModSel f.ms
    unused f.b
    let d ← pairOperand f.d
    let a ← pairOperand f.a
    .ok (.pdbl d a)
  | 0x12 => do
    noModSel f.ms
    let d ← pairOperand f.d
    let a ← pairOperand f.a
    .ok (.pmul d a (valueOperand f.b))
  | 0x13 => do
    noModSel f.ms
    unused f.d
    unused f.b
    let a ← pairOperand f.a
    .ok (.pchk a)
  | _ => .error .reservedOpcode

/-- Decode one command word: by 30_encoding.md R86 alone, with no mode and no prefix (R89). -/
def decode (w : Word) : Except Illegal Instr :=
  let f := fields w
  if f.rsv = 0 then decodeFields f else .error .reservedBits

/-- The bus word whose byte lanes are `b0` (lane 0, lowest address) to `b3` (20_memory.md R67). -/
def wordOfLanes (b0 b1 b2 b3 : Byte) : Word := b3 ++ b2 ++ b1 ++ b0

/-- The byte lanes of a bus word, lane 0 first (20_memory.md R67). -/
def lanesOfWord (w : Word) : List Byte :=
  [w.extractLsb' 0 8, w.extractLsb' 8 8, w.extractLsb' 16 8, w.extractLsb' 24 8]

/-- Decode the command word at the front of any bytes, in byte-lane order, and give the bytes after it. -/
def decodeBytes : List Byte → Except Illegal (Instr × List Byte)
  | b0 :: b1 :: b2 :: b3 :: rest => do
    let i ← decode (wordOfLanes b0 b1 b2 b3)
    .ok (i, rest)
  | _ => .error .truncated

/-- The instruction the decoder reads from the table word `w` of `nbits` bits (bit 0 the least significant), laid out in byte
lanes; bits at and above `nbits` are 0. -/
def decodeTableWord (nbits w : Nat) : Option Instr :=
  match decodeBytes (lanesOfWord (BitVec.ofNat 32 (w % 2 ^ nbits))) with
  | .ok (i, _) => some i
  | .error _ => none

/-! ### The encoder -/

/-- The 4-bit field of a value-register operand. -/
def valueField (r : Fin 16) : BitVec 4 := BitVec.ofFin r

/-- The 4-bit field of a pair operand: bit 3 is 0 (30_encoding.md R82). -/
def pairField (q : Fin 8) : BitVec 4 := BitVec.ofNat 4 q.val

/-- The MS bit of a modulus select (40_field_montgomery.md R101). -/
def modSelField : ModSel → BitVec 1
  | .p => 0#1
  | .n => 1#1

/-- The command format of 30_encoding.md R81, with RSV = 0. -/
def commandWord (op : BitVec 8) (d a b : BitVec 4) (ms : BitVec 1) : Word :=
  0#11 ++ ms ++ b ++ a ++ d ++ op

/-- The word of an instruction: the opcodes of 30_encoding.md R84 in the format of R81, unused fields 0. -/
def encode : Instr → Word
  | .nop => commandWord 0x00#8 0 0 0 0
  | .mmul d a b ms => commandWord 0x01#8 (valueField d) (valueField a) (valueField b) (modSelField ms)
  | .fsqr d a ms => commandWord 0x02#8 (valueField d) (valueField a) 0 (modSelField ms)
  | .mr2 d ms => commandWord 0x03#8 (valueField d) 0 0 (modSelField ms)
  | .minv d a ms => commandWord 0x04#8 (valueField d) (valueField a) 0 (modSelField ms)
  | .padd d a b => commandWord 0x10#8 (pairField d) (pairField a) (pairField b) 0
  | .pdbl d a => commandWord 0x11#8 (pairField d) (pairField a) 0 0
  | .pmul d a b => commandWord 0x12#8 (pairField d) (pairField a) (valueField b) 0
  | .pchk a => commandWord 0x13#8 0 (pairField a) 0 0

/-! ### The match and mask table -/

/-- The nine mnemonics (30_encoding.md R84). -/
inductive Mnemonic
  | NOP | MMUL | FSQR | MR2 | MINV | PADD | PDBL | PMUL | PCHK
deriving DecidableEq, Repr

/-- The mnemonic of an instruction (30_encoding.md R84). -/
def mnemonicOf : Instr → Mnemonic
  | .nop => .NOP
  | .mmul _ _ _ _ => .MMUL
  | .fsqr _ _ _ => .FSQR
  | .mr2 _ _ => .MR2
  | .minv _ _ _ => .MINV
  | .padd _ _ _ => .PADD
  | .pdbl _ _ => .PDBL
  | .pmul _ _ _ => .PMUL
  | .pchk _ => .PCHK

/-- A row of the table of 30_encoding.md R85. -/
structure TableRow where
  mnemonic : Mnemonic
  bits : Word
  mask : Word
deriving DecidableEq, Repr

/-- A word encodes the command of a row when (w AND mask) = match (30_encoding.md R85). -/
def TableRow.accepts (r : TableRow) (w : Word) : Bool := (w &&& r.mask) == r.bits

/-- The match and mask table of 30_encoding.md R85. -/
def opcodeTable : List TableRow :=
  [ ⟨.NOP, 0x00000000, 0xFFFFFFFF⟩,
    ⟨.MMUL, 0x00000001, 0xFFE000FF⟩,
    ⟨.FSQR, 0x00000002, 0xFFEF00FF⟩,
    ⟨.MR2, 0x00000003, 0xFFEFF0FF⟩,
    ⟨.MINV, 0x00000004, 0xFFEF00FF⟩,
    ⟨.PADD, 0x00000010, 0xFFF888FF⟩,
    ⟨.PDBL, 0x00000011, 0xFFFF88FF⟩,
    ⟨.PMUL, 0x00000012, 0xFFF088FF⟩,
    ⟨.PCHK, 0x00000013, 0xFFFF8FFF⟩ ]

end Sys2Proof
end

