-- ==== Sys2Proof/Machine/HostOp.lean ====
section
/-! DEFINITION. The operations of the host agent: bus accesses, branches on the last value read, and the platform's hard
reset as an event of the host's script (30_encoding.md R90, 20_memory.md R65-R68, 70_reset_and_hazards.md R190). -/

namespace Sys2Proof.Machine

/-- The width of a bus access. Only `word` is served (20_memory.md R68, R69). -/
inductive Width
  /-- 8 bits: refused (20_memory.md R68). -/
  | byte
  /-- 16 bits: refused (20_memory.md R68). -/
  | half
  /-- 32 bits: the only access width (20_memory.md R69). -/
  | word
  /-- One access of more than 32 bits. R68 names the refusal only of byte, halfword and misaligned word accesses; that a wider
  access gets the same refusal is DEDUCED from its "must be a 32-bit access" (log 18). -/
  | wide
deriving DecidableEq, Repr

/-- The word a host write carries: a constant, or a function of the last value read, as the expansion of `ldq` needs
(30_encoding.md R91). -/
inductive HostData
  /-- A constant word. -/
  | lit (w : Word)
  /-- The last value read AND NOT a mask. -/
  | lastAndNot (mask : Word)
  /-- The last value read OR a mask. -/
  | lastOr (mask : Word)
deriving DecidableEq, Repr

/-- One operation of the host's script. Branch targets are positions in the script, which is what labels stand for
(30_encoding.md R90). -/
inductive HostOp
  /-- `rd off`: a bus read. -/
  | rd (off : Offset) (width : Width)
  /-- `wr off, w`: a bus write. -/
  | wr (off : Offset) (width : Width) (data : HostData)
  /-- `bnz mask, label`: branch when the last value read, masked, is not zero. -/
  | bnz (mask : Word) (target : Nat)
  /-- `bz mask, label`: branch when the last value read, masked, is zero. -/
  | bz (mask : Word) (target : Nat)
  /-- The platform asserts the block's reset input (70_reset_and_hazards.md R190; log 9). -/
  | hardReset
deriving DecidableEq, Repr

/-- What the bus answered to the host's last access (20_memory.md R65, R66, R68). -/
inductive BusResponse
  /-- No access yet. -/
  | none
  /-- A read was performed and returned this word. -/
  | data (w : Word)
  /-- A write was accepted by the bus (also a write the block ignores or drops). -/
  | written
  /-- The access was refused: the error response, read data 0. -/
  | error
deriving DecidableEq, Repr

end Sys2Proof.Machine
end

