-- ==== Sys2Proof/Machine/State.lean ====
section
/-! DEFINITION. The machine's state as plain data (10_state.md R20), its value after a hard reset (R46), and the reasons a
step can stop. -/

namespace Sys2Proof.Machine

/-- The registers a command's snapshot copies (10_state.md R41): the value registers, the identity flags and the curve
configuration registers. -/
structure Registers where
  /-- V[0..15] (10_state.md R21). -/
  v : Vector Value 16
  /-- I[7:0], bit j is I[j] (10_state.md R24). -/
  inf : BitVec 8
  /-- P, the field modulus (10_state.md R26). -/
  p : Value
  /-- A, the curve coefficient a (10_state.md R26). -/
  a : Value
  /-- B, the curve coefficient b (10_state.md R26). -/
  b : Value
  /-- N, the group order (10_state.md R26). -/
  n : Value
deriving DecidableEq, Repr

/-- The error completion codes (60_exceptions.md R170). The reserved codes 7-15 are never written (10_state.md R36), so the
type has no name for them. -/
inductive CommandError
  /-- 1: the CMD word is not legal. -/
  | illegalCommand
  /-- 2: the modulus the command uses is invalid. -/
  | badModulus
  /-- 3: a Montgomery operand or a point coordinate is not reduced. -/
  | operandRange
  /-- 4: an operand fails the on-curve check. -/
  | invalidPoint
  /-- 5: an inverse of a value congruent to 0 was required. -/
  | divisionByZero
  /-- 6: an inverse was required of a value sharing a factor with the modulus. -/
  | noInverseExists
deriving DecidableEq, Repr

/-- A completion code: OK (0) or an error (60_exceptions.md R170). -/
inductive Code
  | ok
  | error (e : CommandError)
deriving DecidableEq, Repr

/-- The engine state (10_state.md R39): its phase and, while BUSY, the accepted command word and the snapshot S. `delay` is
the model's own (log 1): how many host steps still come before the completion step. -/
inductive Engine
  | idle
  | busy (word : Word) (snapshot : Registers) (delay : Nat)
deriving DecidableEq, Repr

/-- The host agent (20_memory.md R73, 30_encoding.md R90; log 2). -/
structure HostAgent where
  /-- The host's program, "the program of the block" (10_state.md R29). -/
  program : List HostOp
  /-- Position of the next operation; at or past the end, the host does nothing more. -/
  pc : Nat
  /-- The last value read. -/
  last : Word
  /-- The bus's answer to the last access. -/
  response : BusResponse
deriving DecidableEq, Repr

/-- The whole machine: the block (10_state.md R20), the host agent, and the model's draw counter. -/
structure State where
  /-- V, I, P, A, B, N. -/
  regs : Registers
  /-- CTRL.IE (10_state.md R32). -/
  ie : Bool
  /-- STATUS.DONE (10_state.md R33). -/
  done : Bool
  /-- STATUS.ERR (10_state.md R33). -/
  err : Bool
  /-- STATUS.OC (10_state.md R33). -/
  oc : Bool
  /-- STATUS.WERR (10_state.md R33). -/
  werr : Bool
  /-- STATUS.ECODE (10_state.md R33, R36). -/
  ecode : Code
  /-- CMD, the last recorded command word (10_state.md R35). -/
  cmd : Word
  /-- phase, the accepted word and the snapshot (10_state.md R39). -/
  engine : Engine
  /-- The host agent. -/
  host : HostAgent
  /-- How many commands have been accepted: the index of the next free latency (log 1). -/
  draws : Nat
deriving DecidableEq, Repr

/-- Why a step could stop with a fault: never. The block has no traps (60_exceptions.md R179), a refused access is an
answer to the host (20_memory.md R68), and there is no stuck state (93_implementation_defined.md part 2). -/
inductive Fault
deriving DecidableEq, Repr

/-- Why a step could be refused. -/
inductive Refusal
  /-- Raised by an arm of `exec` whose instruction has no meaning yet: no arm of this model. Safe. -/
  | notModelled (mnemonic : String)
deriving DecidableEq, Repr

/-- Every register of the snapshot set 0 (10_state.md R46). -/
def Registers.reset : Registers :=
  { v := Vector.replicate 16 0, inf := 0, p := 0, a := 0, b := 0, n := 0 }

/-- The host agent before it has done anything: no program is loaded (DESIGN CHOICE, log 2, log 3). -/
def HostAgent.reset : HostAgent :=
  { program := [], pc := 0, last := 0, response := .none }

/-- The machine right after a hard reset: every value is that of 10_state.md R46; the host agent's and the draw counter's
are the model's (log 1, log 2). -/
def State.reset : State :=
  { regs := Registers.reset
    ie := false
    done := false
    err := false
    oc := false
    werr := false
    ecode := .ok
    cmd := 0
    engine := .idle
    host := HostAgent.reset
    draws := 0 }

end Sys2Proof.Machine
end

