-- ==== Sys2Proof/Machine/Arith.lean ====
section
/-! DEFINITION. The arithmetic the commands compute, on mathematical integers (00_scope.md R11, R16): inverseMod
(41_modular_inverse.md R120), the Montgomery product (40_field_montgomery.md R100), the group law and the membership test
(42_curve_group.md R130, R131), and double-and-add (43_scalar_multiply.md R150). `raise E` is `Except.error E`. -/

namespace Sys2Proof.Machine

/-- `bitlen(n)`, the number of bits without leading zeros (00_scope.md R12). -/
def bitlen (n : Nat) : Nat := if n = 0 then 0 else Nat.log2 n + 1

/-- The least non-negative remainder of an integer modulo `m` ≥ 1 (00_scope.md R11). -/
def residue (x : Int) (m : Nat) : Nat := (x % (m : Int)).toNat

/-! ### Modular inverse -/

/-- The Euclidean loop of 41_modular_inverse.md R120 on (r0, r1) and (t0, t1); it ends with (r0, t0) when r1 = 0. `fuel` bounds
the iterations: r1 strictly decreases (44_system.md R161), so r1 itself is enough (log 12). -/
def euclid : (fuel r0 r1 : Nat) → (t0 t1 : Int) → Nat × Int
  | 0, r0, _, t0, _ => (r0, t0)
  | fuel + 1, r0, r1, t0, t1 =>
    if r1 = 0 then (r0, t0)
    else euclid fuel r1 (r0 - r0 / r1 * r1) t1 (t0 - ((r0 / r1 : Nat) : Int) * t1)

/-- `inverseMod(k, m)` of 41_modular_inverse.md R120, for any integer k and m ≥ 2. -/
def inverseMod (k : Int) (m : Nat) : Except CommandError Nat :=
  let k' := residue k m
  if k' = 0 then .error .divisionByZero
  else
    let r := euclid k' m k' 0 1
    if r.1 ≠ 1 then .error .noInverseExists else .ok (residue r.2 m)

/-! ### Montgomery arithmetic -/

/-- Rinv of 40_field_montgomery.md R100, the x in [0, m) with (R · x) mod m = 1, found by the Euclidean loop. It exists for
every odd m ≥ 3; the value 0 for other m is never used, since the modulus check comes first (log 13). -/
def montgomeryRinv (m : Nat) : Nat :=
  match inverseMod (Config.R : Nat) m with
  | .ok x => x
  | .error _ => 0

/-- `mont_m(a, b) = (a · b · Rinv) mod m` (40_field_montgomery.md R100). -/
def mont (m a b : Nat) : Nat := a * b * montgomeryRinv m % m

/-- Montgomery reduction as 40_field_montgomery.md R107 describes a realisation: with m' = (−m⁻¹) mod R and t = a · b,
u = (t + ((t · m') mod R) · m) / R, less m when u ≥ m. No command uses it: it is there to be compared with `mont`. -/
def redc (m m' a b : Nat) : Nat :=
  let t := a * b
  let u := (t + t * m' % Config.R * m) / Config.R
  if u ≥ m then u - m else u

/-! ### The curve group -/

/-- A point: the identity O, or an affine point (10_state.md R23). -/
inductive Point
  | identity
  | affine (x y : Nat)
deriving DecidableEq, Repr

/-- The curve y² = x³ + a·x + b modulo p (42_curve_group.md). -/
structure Curve where
  p : Nat
  a : Nat
  b : Nat
deriving DecidableEq, Repr

/-- `isOnCurve(pt)` of 42_curve_group.md R130. -/
def isOnCurve (c : Curve) : Point → Bool
  | .identity => true
  | .affine x y => ((y : Int) * y - (x : Int) * x * x - (c.a : Int) * x - (c.b : Int)) % (c.p : Int) == 0

/-- The slope of the tangent (equal x) or of the chord (42_curve_group.md R131); the division may raise. -/
def lineSlope (c : Curve) (x1 y1 x2 y2 : Nat) : Except CommandError Int :=
  if x1 = x2 then do
    let inv ← inverseMod (2 * (y1 : Int)) c.p
    .ok ((3 * (x1 : Int) * x1 + (c.a : Int)) * (inv : Int))
  else do
    let inv ← inverseMod ((x1 : Int) - (x2 : Int)) c.p
    .ok (((y1 : Int) - (y2 : Int)) * (inv : Int))

/-- The third point of the line of slope s through (x1, y1), mirrored and reduced modulo p (42_curve_group.md R131). -/
def thirdPoint (c : Curve) (s : Int) (x1 y1 x2 : Nat) : Point :=
  let rx := s * s - (x1 : Int) - (x2 : Int)
  let ry := -((y1 : Int) + s * (rx - (x1 : Int)))
  .affine (residue rx c.p) (residue ry c.p)

/-- `addPoint(p, q)` of 42_curve_group.md R131: both membership tests, then the identity, then inverse points, then the line. -/
def addPoint (c : Curve) (p q : Point) : Except CommandError Point :=
  if isOnCurve c p = false then .error .invalidPoint
  else if isOnCurve c q = false then .error .invalidPoint
  else
    match p, q with
    | .identity, q => .ok q
    | p, .identity => .ok p
    | .affine x1 y1, .affine x2 y2 =>
      if x1 = x2 ∧ y1 ≠ y2 then .ok .identity
      else do
        let s ← lineSlope c x1 y1 x2 y2
        .ok (thirdPoint c s x1 y1 x2)

/-! ### Scalar multiplication -/

/-- One iteration of the loop of 43_scalar_multiply.md R150 on (acc, addend), for the low bit of k. -/
def doubleAndAddStep (c : Curve) (k : Nat) (acc addend : Point) : Except CommandError (Point × Point) := do
  let acc' ← if k % 2 = 1 then addPoint c acc addend else .ok acc
  let addend' ← addPoint c addend addend
  .ok (acc', addend')

/-- The while loop of 43_scalar_multiply.md R150. `fuel` is the number of iterations, bitlen(k) (log 12). -/
def doubleAndAdd (c : Curve) : (fuel k : Nat) → (acc addend : Point) → Except CommandError Point
  | 0, _, acc, _ => .ok acc
  | fuel + 1, k, acc, addend =>
    if k = 0 then .ok acc
    else do
      let r ← doubleAndAddStep c k acc addend
      doubleAndAdd c fuel (k / 2) r.1 r.2

/-- `scalarMultiply(n, pt)` of 43_scalar_multiply.md R150, with `order` the order register N ≥ 1. -/
def scalarMultiply (c : Curve) (order n : Nat) (pt : Point) : Except CommandError Point :=
  if n % order = 0 ∨ pt = .identity then .ok .identity
  else doubleAndAdd c (bitlen n) n .identity pt

end Sys2Proof.Machine
end

