-- ==== Sys2Proof/Machine/Operands.lean ====
section
/-! DEFINITION. The operand forms of the commands: value registers, pairs, the selected modulus and the curve, with the checks
the spec makes on them. Every form reads a register file, which is the command's snapshot (10_state.md R41). -/

namespace Sys2Proof.Machine

/-- `V[i]` (00_scope.md R13). -/
def Registers.value (r : Registers) (i : Fin 16) : Value := r.v[i]

/-- `I[j]` (00_scope.md R13, 10_state.md R24). -/
def Registers.flag (r : Registers) (j : Fin 8) : Bool := r.inf.getLsbD j.val

/-- The value register that holds the x coordinate of pair j: V[2j] (10_state.md R23). -/
def pairX (j : Fin 8) : Fin 16 := ⟨2 * j.val, by omega⟩

/-- The value register that holds the y coordinate of pair j: V[2j+1] (10_state.md R23). -/
def pairY (j : Fin 8) : Fin 16 := ⟨2 * j.val + 1, by omega⟩

/-- The modulus the MS bit selects (40_field_montgomery.md R101). -/
def Registers.modulus (r : Registers) : ModSel → Nat
  | .p => r.p.toNat
  | .n => r.n.toNat

/-- The curve of the configuration registers P, A, B (42_curve_group.md). -/
def Registers.curve (r : Registers) : Curve :=
  { p := r.p.toNat, a := r.a.toNat, b := r.b.toNat }

/-- The point pair j denotes (10_state.md R23): O when I[j] = 1, whatever its registers hold. -/
def Registers.point (r : Registers) (j : Fin 8) : Point :=
  if r.flag j then .identity else .affine (r.value (pairX j)).toNat (r.value (pairY j)).toNat

/-- `raise BadModulus` when m is even or below 3 (40_field_montgomery.md R102, 42_curve_group.md R133). -/
def checkOddModulus (m : Nat) : Except CommandError Unit :=
  if m % 2 = 0 ∨ m < 3 then .error .badModulus else .ok ()

/-- `raise OperandRange` for a source value not below the modulus (40_field_montgomery.md R103). -/
def checkReduced (x m : Nat) : Except CommandError Unit :=
  if x ≥ m then .error .operandRange else .ok ()

/-- `loadPoint(j)` of 42_curve_group.md R132. -/
def Registers.loadPoint (r : Registers) (j : Fin 8) : Except CommandError Point :=
  if r.flag j then .ok .identity
  else
    let x := (r.value (pairX j)).toNat
    let y := (r.value (pairY j)).toNat
    if x ≥ r.p.toNat ∨ y ≥ r.p.toNat then .error .operandRange else .ok (.affine x y)

end Sys2Proof.Machine
end

