-- ==== Sys2Proof/Machine/Flags.lean ====
section
/-! DEFINITION. The STATUS and CTRL registers' bits, the completion-code numbers and the interrupt output. -/

namespace Sys2Proof.Machine

/-- The number of a completion code, as ECODE shows it (60_exceptions.md R170). -/
def Code.number : Code → BitVec 4
  | .ok => 0
  | .error .illegalCommand => 1
  | .error .badModulus => 2
  | .error .operandRange => 3
  | .error .invalidPoint => 4
  | .error .divisionByZero => 5
  | .error .noInverseExists => 6

/-- STATUS.BUSY, the engine's phase (10_state.md R33, R39). -/
def State.busy (s : State) : Bool :=
  match s.engine with
  | .idle => false
  | .busy _ _ _ => true

/-- The STATUS word (10_state.md R33): ECODE in bits 11:8, WERR 4, OC 3, ERR 2, DONE 1, BUSY 0, reserved bits 0. -/
def State.statusWord (s : State) : Word :=
  0#20 ++ s.ecode.number ++ 0#3 ++ BitVec.ofBool s.werr ++ BitVec.ofBool s.oc ++ BitVec.ofBool s.err
    ++ BitVec.ofBool s.done ++ BitVec.ofBool s.busy

/-- The CTRL word as read: SRST reads 0, IE is bit 1 (10_state.md R32). -/
def State.ctrlWord (s : State) : Word := 0#30 ++ BitVec.ofBool s.ie ++ 0#1

/-- The PTINF word: I[7:0], upper bits 0 (10_state.md R24). -/
def State.ptinfWord (s : State) : Word := 0#24 ++ s.regs.inf

/-- A STATUS write: DONE, ERR and WERR are cleared by writing 1, all else is ignored (10_state.md R34). -/
def State.statusWrite (w : Word) (s : State) : State :=
  { s with
    done := s.done && !w.getLsbD 1
    err := s.err && !w.getLsbD 2
    werr := s.werr && !w.getLsbD 4 }

/-- The interrupt output IRQ = CTRL.IE and STATUS.DONE (10_state.md R45, 60_exceptions.md R177). -/
def State.irq (s : State) : Bool := s.ie && s.done

/-- The platform interrupt lines the block drives high (60_exceptions.md R177; log 5). -/
def State.raisedLines (s : State) : List Nat := if s.irq then [Config.irqLine] else []

end Sys2Proof.Machine
end

