-- ==== Sys2Proof/Machine/Ops.lean ====
section
/-! DEFINITION. The shared operations on the machine's state: register writes, completion with and without an error, acceptance,
the two resets. -/

namespace Sys2Proof.Machine

/-! ### Register writes -/

/-- `V[i] <- x` (00_scope.md R13). -/
def Registers.setValue (r : Registers) (i : Fin 16) (x : Value) : Registers :=
  { r with v := r.v.set i.val x i.isLt }

/-- `I[j] <- b` (00_scope.md R13). -/
def Registers.setFlag (r : Registers) (j : Fin 8) (b : Bool) : Registers :=
  { r with inf := if b then r.inf ||| (1#8 <<< j.val) else r.inf &&& ~~~(1#8 <<< j.val) }

/-- `WritePoint(j, pt)` (00_scope.md R13, 10_state.md R25): the identity is the flag and two zero coordinates. -/
def Registers.writePoint (r : Registers) (j : Fin 8) : Point → Registers
  | .identity => ((r.setFlag j true).setValue (pairX j) 0).setValue (pairY j) 0
  | .affine x y =>
    ((r.setFlag j false).setValue (pairX j) (BitVec.ofNat Config.W x)).setValue (pairY j) (BitVec.ofNat Config.W y)

/-! ### Completion -/

/-- What a successful command commits (00_scope.md R15). -/
inductive Commit
  /-- `commit (nothing)`: NOP. -/
  | nothing
  /-- `commit V[d] <- x`. -/
  | value (d : Fin 16) (x : Value)
  /-- `commit WritePoint(d, pt)`. -/
  | point (d : Fin 8) (pt : Point)
  /-- `commit STATUS.OC <- b`. -/
  | onCurve (b : Bool)
deriving DecidableEq, Repr

/-- A command's outcome (10_state.md R43): an error code, or the writes of a success. -/
abbrev CommandResult := Except CommandError Commit

/-- Perform the writes of a commit. -/
def State.applyCommit (c : Commit) (s : State) : State :=
  match c with
  | .nothing => s
  | .value d x => { s with regs := s.regs.setValue d x }
  | .point d pt => { s with regs := s.regs.writePoint d pt }
  | .onCurve b => { s with oc := b }

/-- Successful completion (60_exceptions.md R173): the commit, ECODE <- OK, DONE <- 1, phase <- IDLE; ERR is not changed. -/
def State.completeOk (c : Commit) (s : State) : State :=
  { s.applyCommit c with ecode := .ok, done := true, engine := .idle }

/-- Error completion (60_exceptions.md R172), the block's whole exception mechanism: ECODE <- E, ERR <- 1, DONE <- 1,
phase <- IDLE, and nothing else. -/
def State.completeError (e : CommandError) (s : State) : State :=
  { s with ecode := .error e, err := true, done := true, engine := .idle }

/-- The completion step for an outcome (10_state.md R43). -/
def State.complete (r : CommandResult) (s : State) : State :=
  match r with
  | .ok c => s.completeOk c
  | .error e => s.completeError e

/-- What a command reads: the snapshot of a BUSY engine (10_state.md R41). For an IDLE engine, the snapshot that acceptance
would take now; `step` never completes a command of an IDLE engine (log 4). -/
def State.operands (s : State) : Registers :=
  match s.engine with
  | .busy _ snapshot _ => snapshot
  | .idle => s.regs

/-- The end of a command: its outcome is a function of what it reads, and completion applies it (10_state.md R43). -/
def runCommand (rule : Registers → CommandResult) (s : State) : Host.Outcome State Fault Refusal :=
  .next (s.complete (rule s.operands))

/-! ### Acceptance and resets -/

/-- Acceptance of a legal word (10_state.md R40, R41): CMD <- w, DONE <- 0, phase <- BUSY, the snapshot is taken. `delay` is how
many host steps come before the completion (log 1). -/
def State.accept (w : Word) (delay : Nat) (s : State) : State :=
  { s with cmd := w, done := false, engine := .busy w s.regs delay }

/-- A CMD write while IDLE (10_state.md R35, R40): an illegal word completes at once with IllegalCommand, a legal one is
accepted, with the next free latency. -/
def State.commandWrite (w : Word) (s : State) : State :=
  match decode w with
  | .error _ => { s with cmd := w }.completeError .illegalCommand
  | .ok _ => { s with draws := s.draws + 1 }.accept w (Config.latency s.draws)

/-- Soft reset (70_reset_and_hazards.md R192, 10_state.md R44): a command in flight is aborted, STATUS <- 0, CMD <- 0. -/
def State.softReset (s : State) : State :=
  { s with
    engine := .idle, done := false, err := false, oc := false, werr := false, ecode := .ok, cmd := 0 }

/-- A CTRL write (10_state.md R32): with bit 0 = 1 the soft reset comes first, then IE takes bit 1. -/
def State.ctrlWrite (w : Word) (s : State) : State :=
  if w.getLsbD 0 then { s.softReset with ie := w.getLsbD 1 } else { s with ie := w.getLsbD 1 }

/-- Hard reset (70_reset_and_hazards.md R191): every piece of the block's state takes its reset value. The host agent and the
draw counter are not the block's (log 9). -/
def State.hardReset (s : State) : State :=
  { State.reset with host := s.host, draws := s.draws }

end Sys2Proof.Machine
end

