-- ==== Sys2Proof/Machine/CurveGroup.lean ====
section
/-! DEFINITION. Point addition, point doubling and the membership test (42_curve_group.md R134-R136). -/

namespace Sys2Proof.Machine

/-- The rule of PADD (42_curve_group.md R135): pair A is loaded before pair B. -/
def rulePadd (d a b : Fin 8) (S : Registers) : CommandResult := do
  checkOddModulus S.p.toNat
  let p ← S.loadPoint a
  let q ← S.loadPoint b
  let r ← addPoint S.curve p q
  .ok (.point d r)

/-- PADD (42_curve_group.md R135). -/
def execPadd (d a b : Fin 8) (s : State) : Host.Outcome State Fault Refusal :=
  runCommand (rulePadd d a b) s

/-- The rule of PDBL (42_curve_group.md R136). -/
def rulePdbl (d a : Fin 8) (S : Registers) : CommandResult := do
  checkOddModulus S.p.toNat
  let p ← S.loadPoint a
  let r ← addPoint S.curve p p
  .ok (.point d r)

/-- PDBL (42_curve_group.md R136). -/
def execPdbl (d a : Fin 8) (s : State) : Host.Outcome State Fault Refusal :=
  runCommand (rulePdbl d a) s

/-- The rule of PCHK (42_curve_group.md R134): a point off the curve is no error. -/
def rulePchk (a : Fin 8) (S : Registers) : CommandResult := do
  checkOddModulus S.p.toNat
  let pt ← S.loadPoint a
  .ok (.onCurve (isOnCurve S.curve pt))

/-- PCHK (42_curve_group.md R134). -/
def execPchk (a : Fin 8) (s : State) : Host.Outcome State Fault Refusal :=
  runCommand (rulePchk a) s

end Sys2Proof.Machine
end

