-- ==== Sys2Proof/Machine/Field.lean ====
section
/-! DEFINITION. The Montgomery multiplier, the field squarer and the Montgomery constant (40_field_montgomery.md R104-R106). -/

namespace Sys2Proof.Machine

/-- The rule of MMUL (40_field_montgomery.md R104). -/
def ruleMmul (d a b : Fin 16) (ms : ModSel) (S : Registers) : CommandResult := do
  let m := S.modulus ms
  checkOddModulus m
  let x := (S.value a).toNat
  let y := (S.value b).toNat
  checkReduced x m
  checkReduced y m
  .ok (.value d (BitVec.ofNat Config.W (mont m x y)))

/-- MMUL (40_field_montgomery.md R104). -/
def execMmul (d a b : Fin 16) (ms : ModSel) (s : State) : Host.Outcome State Fault Refusal :=
  runCommand (ruleMmul d a b ms) s

/-- The rule of FSQR (40_field_montgomery.md R105). -/
def ruleFsqr (d a : Fin 16) (ms : ModSel) (S : Registers) : CommandResult := do
  let m := S.modulus ms
  checkOddModulus m
  let x := (S.value a).toNat
  checkReduced x m
  .ok (.value d (BitVec.ofNat Config.W (mont m x x)))

/-- FSQR (40_field_montgomery.md R105). -/
def execFsqr (d a : Fin 16) (ms : ModSel) (s : State) : Host.Outcome State Fault Refusal :=
  runCommand (ruleFsqr d a ms) s

/-- The rule of MR2 (40_field_montgomery.md R106). -/
def ruleMr2 (d : Fin 16) (ms : ModSel) (S : Registers) : CommandResult := do
  let m := S.modulus ms
  checkOddModulus m
  .ok (.value d (BitVec.ofNat Config.W (2 ^ (2 * Config.W) % m)))

/-- MR2 (40_field_montgomery.md R106). -/
def execMr2 (d : Fin 16) (ms : ModSel) (s : State) : Host.Outcome State Fault Refusal :=
  runCommand (ruleMr2 d ms) s

end Sys2Proof.Machine
end

