-- ==== Sys2Proof/Machine/Inverse.lean ====
section
/-! DEFINITION. The modular inverse (41_modular_inverse.md R121). -/

namespace Sys2Proof.Machine

/-- The rule of MINV (41_modular_inverse.md R121): any operand is accepted and reduced, an even modulus too. -/
def ruleMinv (d a : Fin 16) (ms : ModSel) (S : Registers) : CommandResult := do
  let m := S.modulus ms
  if m < 2 then .error .badModulus
  else
    let x ← inverseMod ((S.value a).toNat : Int) m
    .ok (.value d (BitVec.ofNat Config.W x))

/-- MINV (41_modular_inverse.md R121). -/
def execMinv (d a : Fin 16) (ms : ModSel) (s : State) : Host.Outcome State Fault Refusal :=
  runCommand (ruleMinv d a ms) s

end Sys2Proof.Machine
end

