-- ==== Sys2Proof/Machine/Scalar.lean ====
section
/-! DEFINITION. The scalar multiplier (43_scalar_multiply.md R151). -/

namespace Sys2Proof.Machine

/-- The rule of PMUL (43_scalar_multiply.md R151): P is checked before N, both before the operands. -/
def rulePmul (d a : Fin 8) (b : Fin 16) (S : Registers) : CommandResult := do
  checkOddModulus S.p.toNat
  if S.n.toNat = 0 then .error .badModulus
  else
    let pt ← S.loadPoint a
    let r ← scalarMultiply S.curve S.n.toNat (S.value b).toNat pt
    .ok (.point d r)

/-- PMUL (43_scalar_multiply.md R151). -/
def execPmul (d a : Fin 8) (b : Fin 16) (s : State) : Host.Outcome State Fault Refusal :=
  runCommand (rulePmul d a b) s

end Sys2Proof.Machine
end

