-- ==== Sys2Proof/Machine/System.lean ====
section
/-! DEFINITION. NOP (44_system.md). -/

namespace Sys2Proof.Machine

/-- The rule of NOP (44_system.md R160): `commit (nothing)`. -/
def ruleNop (_ : Registers) : CommandResult := .ok .nothing

/-- NOP (44_system.md R160). -/
def execNop (s : State) : Host.Outcome State Fault Refusal := runCommand ruleNop s

end Sys2Proof.Machine
end

