-- ==== Sys2Proof/Machine/Dispatch.lean ====
section
/-! DEFINITION. One arm per command, each one call of its meaning. -/

namespace Sys2Proof.Machine

/-- The completion step of command `i` (10_state.md R43). -/
def exec (i : Instr) (s : State) : Host.Outcome State Fault Refusal :=
  match i with
  | .nop => Sys2Proof.Machine.execNop s
  | .mmul d a b ms => Sys2Proof.Machine.execMmul d a b ms s
  | .fsqr d a ms => Sys2Proof.Machine.execFsqr d a ms s
  | .mr2 d ms => Sys2Proof.Machine.execMr2 d ms s
  | .minv d a ms => Sys2Proof.Machine.execMinv d a ms s
  | .padd d a b => Sys2Proof.Machine.execPadd d a b s
  | .pdbl d a => Sys2Proof.Machine.execPdbl d a s
  | .pmul d a b => Sys2Proof.Machine.execPmul d a b s
  | .pchk a => Sys2Proof.Machine.execPchk a s

end Sys2Proof.Machine
end

