-- ==== Sys2Proof/Machine/Bus.lean ====
section
/-! DEFINITION. The bus target: the register window's address map, BusRead and BusWrite (20_memory.md R60-R72). -/

namespace Sys2Proof.Machine

/-- A configuration register (10_state.md R26), in slot order (20_memory.md R63). -/
inductive ConfigReg
  | p
  | a
  | b
  | n
deriving DecidableEq, Repr

/-- What a word offset of the window holds (20_memory.md R61). -/
inductive Target
  | id
  | ctrl
  | status
  | cmd
  | ptinf
  /-- Word k of V[i] (20_memory.md R62). -/
  | value (i : Fin 16) (k : Fin 8)
  /-- Word k of a configuration register (20_memory.md R63). -/
  | config (c : ConfigReg) (k : Fin 8)
  /-- A reserved offset or an unused slot word (20_memory.md R64). -/
  | unused
deriving DecidableEq, Repr

/-- The configuration register of slot number c, 0 to 3 (20_memory.md R63, R65). -/
def configSlot : Nat → ConfigReg
  | 0 => .p
  | 1 => .a
  | 2 => .b
  | _ => .n

/-- The address map for word-aligned offsets (20_memory.md R61-R65). -/
def target (off : Offset) : Target :=
  let o := off.toNat
  let k := o % 0x80 / 4
  if 0x400 ≤ o ∧ o < 0xC00 then
    if k < Config.WORDS then .value (Fin.ofNat 16 ((o - 0x400) / 0x80)) (Fin.ofNat 8 k) else .unused
  else if 0xC00 ≤ o ∧ o < 0xE00 then
    if k < Config.WORDS then .config (configSlot ((o - 0xC00) / 0x80)) (Fin.ofNat 8 k) else .unused
  else
    match o with
    | 0x000 => .id
    | 0x004 => .ctrl
    | 0x008 => .status
    | 0x00C => .cmd
    | 0x010 => .ptinf
    | _ => .unused

/-- Word k of a register: bits [32k+31 : 32k] (20_memory.md R62). -/
def getWord (x : Value) (k : Fin 8) : Word := x.extractLsb' (32 * k.val) 32

/-- A register with word k replaced by w and every other bit kept (20_memory.md R66). -/
def setWord (x : Value) (k : Fin 8) (w : Word) : Value :=
  (x &&& ~~~((0xFFFFFFFF#256) <<< (32 * k.val))) ||| (w.setWidth Config.W <<< (32 * k.val))

/-- The configuration register c. -/
def Registers.config (r : Registers) : ConfigReg → Value
  | .p => r.p
  | .a => r.a
  | .b => r.b
  | .n => r.n

/-- Write the configuration register c. -/
def Registers.setConfig (r : Registers) (c : ConfigReg) (x : Value) : Registers :=
  match c with
  | .p => { r with p := x }
  | .a => { r with a := x }
  | .b => { r with b := x }
  | .n => { r with n := x }

/-- `BusRead(off)` (20_memory.md R65): the committed state, also while BUSY (R72); no side effect (R70). -/
def State.busRead (s : State) (off : Offset) : Word :=
  match target off with
  | .value i k => getWord (s.regs.value i) k
  | .config c k => getWord (s.regs.config c) k
  | .id => Config.idValue
  | .ctrl => s.ctrlWord
  | .status => s.statusWord
  | .cmd => s.cmd
  | .ptinf => s.ptinfWord
  | .unused => 0

/-- A write to CMD, PTINF, a value slot word or a configuration slot word: performed while IDLE, dropped with WERR <- 1 while
BUSY (20_memory.md R71). -/
def State.guardedWrite (write : State → State) (s : State) : State :=
  if s.busy then { s with werr := true } else write s

/-- `BusWrite(off, w)` (20_memory.md R66). -/
def State.busWrite (off : Offset) (w : Word) (s : State) : State :=
  match target off with
  | .ctrl => s.ctrlWrite w
  | .status => s.statusWrite w
  | .id => s
  | .unused => s
  | .cmd => s.guardedWrite (State.commandWrite w)
  | .ptinf => s.guardedWrite fun s => { s with regs := { s.regs with inf := w.setWidth 8 } }
  | .value i k =>
    s.guardedWrite fun s => { s with regs := s.regs.setValue i (setWord (s.regs.value i) k w) }
  | .config c k =>
    s.guardedWrite fun s => { s with regs := s.regs.setConfig c (setWord (s.regs.config c) k w) }

/-- The accesses the bus target serves: 32 bits wide at a multiple of 4 (20_memory.md R68; a wider access: log 18). -/
def served (off : Offset) (width : Width) : Bool :=
  width == .word && off.toNat % 4 == 0

/-- The offset a bus address selects in the block's window, if it lies in the window at BASE (20_memory.md R60, 00_scope.md R9). -/
def windowOffset (addr : Nat) : Option Offset :=
  if Config.base ≤ addr ∧ addr < Config.base + 0x1000 then some (BitVec.ofNat 12 (addr - Config.base)) else none

/-- The bus address of an offset (00_scope.md R9). -/
def busAddress (off : Offset) : Nat := Config.base + off.toNat

end Sys2Proof.Machine
end

