-- ==== Sys2Proof/Machine/HostStep.lean ====
section
/-! DEFINITION. One step of the host agent: a bus access, a branch, or a hard reset by the platform (30_encoding.md R90,
20_memory.md R68, R73). -/

namespace Sys2Proof.Machine

/-- The word a host write carries (30_encoding.md R91). -/
def HostData.eval (last : Word) : HostData → Word
  | .lit w => w
  | .lastAndNot mask => last &&& ~~~mask
  | .lastOr mask => last ||| mask

/-- The host receives the answer to a read: the word, or the error response with read data 0 (20_memory.md R65, R68). -/
def State.hostRead (off : Offset) (width : Width) (s : State) : State :=
  if served off width then
    { s with host := { s.host with last := s.busRead off, response := .data (s.busRead off) } }
  else { s with host := { s.host with last := 0, response := .error } }

/-- The host writes: a served access reaches the block, any other gets the error response and changes nothing in the block
(20_memory.md R68). -/
def State.hostWrite (off : Offset) (width : Width) (w : Word) (s : State) : State :=
  if served off width then
    let t := s.busWrite off w
    { t with host := { t.host with response := .written } }
  else { s with host := { s.host with response := .error } }

/-- The host moves to another place of its program. -/
def State.hostGoto (target : Nat) (s : State) : State :=
  { s with host := { s.host with pc := target } }

/-- One operation of the host, after its position has moved past it. -/
def State.hostOp (op : HostOp) (s : State) : State :=
  match op with
  | .rd off width => s.hostRead off width
  | .wr off width data => s.hostWrite off width (data.eval s.host.last)
  | .bnz mask target => if s.host.last &&& mask ≠ 0 then s.hostGoto target else s
  | .bz mask target => if s.host.last &&& mask = 0 then s.hostGoto target else s
  | .hardReset => s.hardReset

/-- The host's next operation, if its program has one left. -/
def State.nextHostOp (s : State) : Option HostOp := s.host.program[s.host.pc]?

/-- The host's turn: its next operation, or nothing when its program has ended, since an IDLE block does nothing until the
next access (60_exceptions.md R186; log 16). -/
def State.hostStep (s : State) : State :=
  match s.nextHostOp with
  | none => s
  | some op => (s.hostGoto (s.host.pc + 1)).hostOp op

end Sys2Proof.Machine
end

