-- ==== Sys2Proof/Machine/Step.lean ====
section
/-! DEFINITION. One step of the machine: the completion of the engine's command, or one operation of the host (20_memory.md
R73, 10_state.md R43), and where a command word stands for the step that runs it. -/

namespace Sys2Proof.Machine

/-- One step. A BUSY engine completes its command when its delay has run out, or when the host's program has ended (log 16);
otherwise it is the host's turn, and a BUSY engine's delay goes down by one. -/
def step (s : State) : Host.Outcome State Fault Refusal :=
  match s.engine with
  | .idle => .next s.hostStep
  | .busy word snapshot delay =>
    if delay = 0 ∨ s.nextHostOp = none then
      match decode word with
      | .ok i => exec i s
      | .error _ => .next (s.completeError .illegalCommand)
    else .next (State.hostStep { s with engine := .busy word snapshot (delay - 1) })

/-- The state in which the very next step runs the command word `w` (log 3). The block fetches nothing (20_memory.md R77): a
legal word stands in the engine, as its acceptance leaves it, with no host step to come before its completion; an illegal
one is never accepted and stands in the host's program, as the CMD write that comes next. -/
def State.withFetchWord (s : State) (nbits w : Nat) : State :=
  let word : Word := BitVec.ofNat 32 (w % 2 ^ nbits)
  match decode word with
  | .ok _ => s.accept word 0
  | .error _ =>
    { s with
      engine := .idle
      host := { s.host with program := [.wr 0x00C .word (.lit word)], pc := 0 } }

end Sys2Proof.Machine
end

