-- ==== Sys2Proof/Machine/Assembler.lean ====
section
/-! DEFINITION. The assembler notation of 30_encoding.md: what a command line and the pseudo-instructions stand for as host
operations (R90, R91), and the text syntax of one command line (R90). -/

namespace Sys2Proof.Machine

/-! ### Command lines and pseudo-instructions as host operations -/

/-- A command line assembles to `wr 0x00C, <word>` (30_encoding.md R90). -/
def commandLine (i : Instr) : HostOp := .wr 0x00C .word (.lit (encode i))

/-- `wait` at position `here`: `L: rd 0x008` / `bnz 0x1, L` (30_encoding.md R91). -/
def waitLines (here : Nat) : List HostOp := [.rd 0x008 .word, .bnz 0x1 here]

/-- The writes of all words of a register slot, word 0 first (30_encoding.md R91). -/
def slotLines (slot : Nat) (x : Value) : List HostOp :=
  (List.range Config.WORDS).map fun k =>
    .wr (BitVec.ofNat 12 (slot + 4 * k)) .word (.lit (getWord x (Fin.ofNat 8 k)))

/-- `ldv vI, X` (30_encoding.md R91). -/
def ldvLines (i : Fin 16) (x : Value) : List HostOp := slotLines (0x400 + 0x80 * i.val) x

/-- The offset of a configuration register's slot (20_memory.md R63). -/
def configOffset : ConfigReg → Nat
  | .p => 0xC00
  | .a => 0xC80
  | .b => 0xD00
  | .n => 0xD80

/-- `ldc P|A|B|N, X` (30_encoding.md R91). -/
def ldcLines (c : ConfigReg) (x : Value) : List HostOp := slotLines (configOffset c) x

/-- `ldq qJ, (X, Y)` (30_encoding.md R91): both coordinates, then I[J] cleared by a read and a write of PTINF. -/
def ldqLines (j : Fin 8) (x y : Value) : List HostOp :=
  ldvLines (pairX j) x ++ ldvLines (pairY j) y
    ++ [.rd 0x010 .word, .wr 0x010 .word (.lastAndNot (1#32 <<< j.val))]

/-- `ldq qJ, O` (30_encoding.md R91). -/
def ldqIdentityLines (j : Fin 8) : List HostOp :=
  [.rd 0x010 .word, .wr 0x010 .word (.lastOr (1#32 <<< j.val))]

/-- A command followed by `wait`, at position `here`: three operations. -/
def runLines (here : Nat) (i : Instr) : List HostOp := commandLine i :: waitLines (here + 1)

/-- `tomont.m vD, vA, vT` at position `here` (30_encoding.md R91). -/
def tomontLines (here : Nat) (ms : ModSel) (d a t : Fin 16) : List HostOp :=
  runLines here (.mr2 t ms) ++ runLines (here + 3) (.mmul d a t ms)

/-- `frommont.m vD, vA, vT` at position `here` (30_encoding.md R91): eight writes of `ldv vT, 1`, then the product. -/
def frommontLines (here : Nat) (ms : ModSel) (d a t : Fin 16) : List HostOp :=
  ldvLines t 1 ++ runLines (here + 8) (.mmul d a t ms)

/-- `modmul.m vD, vA, vB, vT` at position `here` (30_encoding.md R91). -/
def modmulLines (here : Nat) (ms : ModSel) (d a b t : Fin 16) : List HostOp :=
  runLines here (.mr2 t ms) ++ runLines (here + 3) (.mmul d a b ms) ++ runLines (here + 6) (.mmul d d t ms)

/-! ### Source lines with labels -/

/-- One line of a host program's source (30_encoding.md R90, R91). -/
inductive Line
  /-- `name:` -/
  | label (name : List Char)
  /-- A command line. -/
  | command (i : Instr)
  /-- `rd <off>` -/
  | rd (off : Offset)
  /-- `wr <off>, <word>` -/
  | wr (off : Offset) (w : Word)
  /-- `bnz <expr>, label` -/
  | bnz (mask : Word) (name : List Char)
  /-- `bz <expr>, label` -/
  | bz (mask : Word) (name : List Char)
  | wait
  | ldv (i : Fin 16) (x : Value)
  | ldc (c : ConfigReg) (x : Value)
  | ldq (j : Fin 8) (x y : Value)
  | ldqIdentity (j : Fin 8)
  | tomont (ms : ModSel) (d a t : Fin 16)
  | frommont (ms : ModSel) (d a t : Fin 16)
  | modmul (ms : ModSel) (d a b t : Fin 16)
deriving DecidableEq, Repr

/-- The register conditions of 30_encoding.md R91: vT differs from vA and vB in `tomont` and `modmul`, from vA in `frommont`. -/
def Line.wellFormed : Line → Bool
  | .tomont _ _ a t => t != a
  | .frommont _ _ a t => t != a
  | .modmul _ _ a b t => t != a && t != b
  | _ => true

/-- How many host operations a line stands for. -/
def Line.size : Line → Nat
  | .label _ => 0
  | .command _ | .rd _ | .wr _ _ | .bnz _ _ | .bz _ _ => 1
  | .wait | .ldqIdentity _ => 2
  | .ldv _ _ | .ldc _ _ => 8
  | .ldq _ _ _ => 18
  | .tomont _ _ _ _ => 6
  | .frommont _ _ _ _ => 11
  | .modmul _ _ _ _ _ => 9

/-- The positions of a program's labels, its first line standing at `here`, in the order of their definitions. Names are kept as
they are written: the spec calls the syntax of a command case-insensitive and says nothing of labels (DESIGN CHOICE, log 11). -/
def labelPositions : (here : Nat) → List Line → List (List Char × Nat)
  | _, [] => []
  | here, .label name :: rest => (name, here) :: labelPositions here rest
  | here, line :: rest => labelPositions (here + line.size) rest

/-- The host operations of a line at position `here` (30_encoding.md R90, R91). A branch needs its label; of a label defined twice,
on which the spec is silent, the first definition counts, and names are compared letter for letter (DESIGN CHOICE, log 11). -/
def Line.expand (labels : List (List Char × Nat)) (here : Nat) : Line → Option (List HostOp)
  | .label _ => some []
  | .command i => some [commandLine i]
  | .rd off => some [.rd off .word]
  | .wr off w => some [.wr off .word (.lit w)]
  | .bnz mask name => (labels.lookup name).map fun position => [.bnz mask position]
  | .bz mask name => (labels.lookup name).map fun position => [.bz mask position]
  | .wait => some (waitLines here)
  | .ldv i x => some (ldvLines i x)
  | .ldc c x => some (ldcLines c x)
  | .ldq j x y => some (ldqLines j x y)
  | .ldqIdentity j => some (ldqIdentityLines j)
  | .tomont ms d a t => some (tomontLines here ms d a t)
  | .frommont ms d a t => some (frommontLines here ms d a t)
  | .modmul ms d a b t => some (modmulLines here ms d a b t)

/-- The host operations of the lines from position `here` on. -/
def expandLines (labels : List (List Char × Nat)) : (here : Nat) → List Line → Option (List HostOp)
  | _, [] => some []
  | here, line :: rest =>
    if line.wellFormed then do
      let ops ← line.expand labels here
      let more ← expandLines labels (here + line.size) rest
      some (ops ++ more)
    else none

/-- A host program's source as the script the host agent runs: refused when a line is ill formed or a label is missing. -/
def assembleProgram (lines : List Line) : Option (List HostOp) :=
  expandLines (labelPositions 0 lines) 0 lines

/-! ### The text of a command line -/

/-- Separators between the tokens of a command line (log 11). -/
def isSeparator (c : Char) : Bool := c == ' ' || c == ',' || c == '\t'

/-- The tokens of a line, in lower case (the syntax is case-insensitive, 30_encoding.md R90); `;` begins a comment. `current` is
the token being read, last character first. -/
def tokens : (line current : List Char) → List (List Char)
  | [], current => if current.isEmpty then [] else [current.reverse]
  | c :: rest, current =>
    if c == ';' then if current.isEmpty then [] else [current.reverse]
    else if isSeparator c then
      if current.isEmpty then tokens rest [] else current.reverse :: tokens rest []
    else tokens rest (c.toLower :: current)

/-- The decimal number of a list of digits, most significant first, given the value of the digits before them. -/
def decimal : (digits : List Char) → (before : Nat) → Option Nat
  | [], before => some before
  | c :: rest, before => if c.isDigit then decimal rest (10 * before + (c.toNat - 48)) else none

/-- A register operand: its letter, then a number below the bound (30_encoding.md R90). -/
def registerToken (letter : Char) (bound : Nat) : List Char → Option (Fin bound)
  | c :: d :: rest =>
    if c == letter then
      match decimal (d :: rest) 0 with
      | some n => if h : n < bound then some ⟨n, h⟩ else none
      | none => none
    else none
  | _ => none

/-- A value register `vN`, N in 0..15 (30_encoding.md R90). -/
def valueToken (t : List Char) : Option (Fin 16) := registerToken 'v' 16 t

/-- A pair `qN`, N in 0..7 (30_encoding.md R90). -/
def pairToken (t : List Char) : Option (Fin 8) := registerToken 'q' 8 t

/-- The modulus suffix after a mnemonic: `.p`, `.n`, or none, which is `.p` (30_encoding.md R90). -/
def modSuffix : List Char → Option ModSel
  | [] => some .p
  | ['.', 'p'] => some .p
  | ['.', 'n'] => some .n
  | _ => none

/-- The command of a token list (30_encoding.md R90). -/
def parseTokens : List (List Char) → Option Instr
  | [['n', 'o', 'p']] => some .nop
  | [['p', 'c', 'h', 'k'], a] => do return .pchk (← pairToken a)
  | [['p', 'd', 'b', 'l'], d, a] => do return .pdbl (← pairToken d) (← pairToken a)
  | [['p', 'a', 'd', 'd'], d, a, b] => do return .padd (← pairToken d) (← pairToken a) (← pairToken b)
  | [['p', 'm', 'u', 'l'], d, a, b] => do return .pmul (← pairToken d) (← pairToken a) (← valueToken b)
  | ['m' :: 'r' :: '2' :: ms, d] => do
    let ms ← modSuffix ms
    return .mr2 (← valueToken d) ms
  | ['f' :: 's' :: 'q' :: 'r' :: ms, d, a] => do
    let ms ← modSuffix ms
    return .fsqr (← valueToken d) (← valueToken a) ms
  | ['m' :: 'i' :: 'n' :: 'v' :: ms, d, a] => do
    let ms ← modSuffix ms
    return .minv (← valueToken d) (← valueToken a) ms
  | ['m' :: 'm' :: 'u' :: 'l' :: ms, d, a, b] => do
    let ms ← modSuffix ms
    return .mmul (← valueToken d) (← valueToken a) (← valueToken b) ms
  | _ => none

/-- The command of a line of text, if it is one (30_encoding.md R90). -/
def parseCommand (line : List Char) : Option Instr := parseTokens (tokens line [])

/-- The decimal digits of a register number below 16. -/
def digits (n : Nat) : List Char :=
  if n < 10 then [Char.ofNat (48 + n)] else ['1', Char.ofNat (38 + n)]

/-- `vN`. -/
def valueText (i : Fin 16) : List Char := 'v' :: digits i.val

/-- `qN`. -/
def pairText (j : Fin 8) : List Char := 'q' :: digits j.val

/-- `.p` or `.n`. -/
def modText : ModSel → List Char
  | .p => ['.', 'p']
  | .n => ['.', 'n']

/-- The operands of a line, with commas between them. -/
def operandText : List (List Char) → List Char
  | [] => []
  | [t] => ' ' :: t
  | t :: rest => ' ' :: t ++ [','] ++ operandText rest

/-- The line of a command (30_encoding.md R90), with its modulus suffix written out. -/
def commandText : Instr → List Char
  | .nop => ['n', 'o', 'p']
  | .mmul d a b ms => ['m', 'm', 'u', 'l'] ++ modText ms ++ operandText [valueText d, valueText a, valueText b]
  | .fsqr d a ms => ['f', 's', 'q', 'r'] ++ modText ms ++ operandText [valueText d, valueText a]
  | .mr2 d ms => ['m', 'r', '2'] ++ modText ms ++ operandText [valueText d]
  | .minv d a ms => ['m', 'i', 'n', 'v'] ++ modText ms ++ operandText [valueText d, valueText a]
  | .padd d a b => ['p', 'a', 'd', 'd'] ++ operandText [pairText d, pairText a, pairText b]
  | .pdbl d a => ['p', 'd', 'b', 'l'] ++ operandText [pairText d, pairText a]
  | .pmul d a b => ['p', 'm', 'u', 'l'] ++ operandText [pairText d, pairText a, valueText b]
  | .pchk a => ['p', 'c', 'h', 'k'] ++ operandText [pairText a]

end Sys2Proof.Machine
end

