-- ==== Sys2Proof/Safety.lean ====
section
/-! DEFINITION. What counts as a safe state and a safe run, and the words in which claims are stated: how a state looks after
a completion, and which registers a command may write. -/

namespace Sys2Proof.Machine

/-- `s` after a completion with error code E and nothing else (60_exceptions.md R172), written out field by field. -/
def State.failed (e : CommandError) (s : State) : State :=
  { s with ecode := .error e, err := true, done := true, engine := .idle }

/-- `s` after a successful completion (60_exceptions.md R173) that leaves the registers `regs`, written out field by field. -/
def State.finished (regs : Registers) (s : State) : State :=
  { s with regs := regs, ecode := .ok, done := true, engine := .idle }

/-- The registers `r` with V[d] = x and no other difference. -/
def Registers.withValue (r : Registers) (d : Fin 16) (x : Nat) : Registers :=
  { r with v := r.v.set d.val (BitVec.ofNat Config.W x) d.isLt }

/-- The value registers a command writes (10_state.md R22): V[d], or both registers of pair d, or none. -/
def destinations : Instr → List (Fin 16)
  | .nop => []
  | .mmul d _ _ _ => [d]
  | .fsqr d _ _ => [d]
  | .mr2 d _ => [d]
  | .minv d _ _ => [d]
  | .padd d _ _ => [pairX d, pairY d]
  | .pdbl d _ => [pairX d, pairY d]
  | .pmul d _ _ => [pairX d, pairY d]
  | .pchk _ => []

/-- The pair whose identity flag a command writes (10_state.md R22, R23). -/
def flagDestination : Instr → Option (Fin 8)
  | .nop => none
  | .mmul _ _ _ _ => none
  | .fsqr _ _ _ => none
  | .mr2 _ _ => none
  | .minv _ _ _ => none
  | .padd d _ _ => some d
  | .pdbl d _ => some d
  | .pmul d _ _ => some d
  | .pchk _ => none

/-- A coherent state: a BUSY engine holds the word CMD shows, that word is legal, the registers are still what the snapshot
copied (10_state.md R41, 20_memory.md R71, R72), and DONE is 0, since acceptance cleared it (10_state.md R40). -/
def State.coherent (s : State) : Bool :=
  match s.engine with
  | .idle => true
  | .busy w S _ => legal w && s.cmd == w && s.regs == S && !s.done

/-- It is the host's turn to move: the engine is IDLE, or BUSY with host steps still to come before its completion (log 1). -/
def State.hostsTurn (s : State) : Bool :=
  match s.engine with
  | .idle => true
  | .busy _ _ delay => delay != 0

/-- The engine one host step later: a command in flight comes one step nearer to its completion (log 1). -/
def Engine.tick : Engine → Engine
  | .idle => .idle
  | .busy w S delay => .busy w S (delay - 1)

/-- `n` steps lead from `s` to `t`. -/
def leadsTo (n : Nat) (s t : State) : Prop := Host.Core.run Sys2Proof.core n s = .next t

/-- A run of `n` steps is safe: every state on it, `s` included, is coherent, and no step stops. -/
def SafeRun (n : Nat) (s : State) : Prop := ∀ k ≤ n, ∃ t, leadsTo k s t ∧ t.coherent = true

/-- The Weierstrass curve of Mathlib that a curve over a prime modulus is: y² = x³ + a·x + b over the integers modulo p. -/
def Curve.weierstrass (c : Curve) : WeierstrassCurve.Affine (ZMod c.p) :=
  { a₁ := 0, a₂ := 0, a₃ := 0, a₄ := (c.a : ZMod c.p), a₆ := (c.b : ZMod c.p) }

/-- The curve is non-singular: 4·a³ + 27·b² is not 0 modulo p. -/
def Curve.nonsingular (c : Curve) : Prop := (4 * c.a ^ 3 + 27 * c.b ^ 2) % c.p ≠ 0

/-- A point with reduced coordinates stands for a point of the curve's group: O for 0, (x, y) for the point with these
coordinates modulo p. -/
def Represents (c : Curve) (pt : Point) (g : c.weierstrass.Point) : Prop :=
  match pt with
  | .identity => g = .zero
  | .affine x y =>
    x < c.p ∧ y < c.p ∧ ∃ h : c.weierstrass.Nonsingular (x : ZMod c.p) (y : ZMod c.p), g = .some _ _ h

/-- A point is reduced: its coordinates are below p (42_curve_group.md R132). -/
def Point.reduced (c : Curve) : Point → Prop
  | .identity => True
  | .affine x y => x < c.p ∧ y < c.p

/-- The operation resets the block: the hard-reset input, or a served CTRL write with bit 0 = 1 (70_reset_and_hazards.md R190). -/
def resets (last : Word) : HostOp → Bool
  | .hardReset => true
  | .wr off width data => off == 0x004 && width == .word && (data.eval last).getLsbD 0
  | _ => false

end Sys2Proof.Machine
end

