-- ==== Sys2Proof/Certificates/Slice0/Obligations.lean ====
section
/-! DEFINITION. The statements for the provers. Each docstring names the rule of spec/ it formalises. A statement about a command
is about its completion step: the engine is BUSY, `S` is the snapshot taken at acceptance, and `s` the state before the step. -/

open Sys2Proof Sys2Proof.Machine

/-! ### Encoding -/

/-- 30_encoding.md R81, R84: no bit of an instruction is lost in its word. -/
def Obligations.DecodeOfEncodeIsTheInstruction : Prop :=
  ∀ i : Instr, decode (encode i) = .ok i ∧ decodeTableWord 32 (encode i).toNat = some i

/-- 30_encoding.md R88: each legal word has one meaning, and only the encoder's word has it. -/
def Obligations.EncodeOfDecodeIsTheWord : Prop :=
  ∀ (w : Word) (i : Instr), decode w = .ok i → encode i = w

/-- 30_encoding.md R86: legal(w) is true exactly when some row of the table of R85 matches, and these are the words the decoder
accepts. -/
def Obligations.LegalWordsAreTheTableRows : Prop :=
  ∀ w : Word, (legal w = true ↔ ∃ r ∈ opcodeTable, w &&& r.mask = r.bits) ∧
    (legal w = true ↔ ∃ i, decode w = .ok i)

/-- 30_encoding.md R85: a word encodes the command of a row if and only if (w AND mask) = match, and no two rows match the same
word. -/
def Obligations.EachRowMatchesItsOwnCommand : Prop :=
  (∀ (w : Word), ∀ r ∈ opcodeTable,
    (w &&& r.mask = r.bits ↔ ∃ i, decode w = .ok i ∧ mnemonicOf i = r.mnemonic)) ∧
  (∀ (w : Word), ∀ r ∈ opcodeTable, ∀ r' ∈ opcodeTable,
    w &&& r.mask = r.bits → w &&& r'.mask = r'.bits → r = r')

/-- 30_encoding.md R92: the worked encodings. -/
def Obligations.WorkedEncodingsDecode : Prop :=
  decode 0x00121301 = .ok (.mmul 3 1 2 .n) ∧
  decode 0x00040112 = .ok (.pmul 1 0 4) ∧
  decode 0x00010210 = .ok (.padd 2 0 1) ∧
  decode 0x00000111 = .ok (.pdbl 1 0) ∧
  decode 0x00003013 = .ok (.pchk 3) ∧
  decode 0x00004504 = .ok (.minv 5 4 .p) ∧
  decode 0x00000002 = .ok (.fsqr 0 0 .p) ∧
  decode 0x00100703 = .ok (.mr2 7 .n) ∧
  legal 0x00000810 = false

/-- 30_encoding.md R90: the text of a command line, with its modulus suffix written out or, for P, omitted, reads back as the
command. -/
def Obligations.CommandTextReadsBack : Prop :=
  (∀ i : Instr, parseCommand (commandText i) = some i) ∧
  (∀ d a b : Fin 16,
    parseCommand (['m', 'm', 'u', 'l'] ++ operandText [valueText d, valueText a, valueText b]) = some (.mmul d a b .p) ∧
    parseCommand (['f', 's', 'q', 'r'] ++ operandText [valueText d, valueText a]) = some (.fsqr d a .p) ∧
    parseCommand (['m', 'r', '2'] ++ operandText [valueText d]) = some (.mr2 d .p) ∧
    parseCommand (['m', 'i', 'n', 'v'] ++ operandText [valueText d, valueText a]) = some (.minv d a .p))

/-! ### Arithmetic -/

/-- 41_modular_inverse.md R120: the contract of inverseMod, for any integer k. -/
def Obligations.InverseModMeetsItsContract : Prop :=
  ∀ (k : Int) (m : Nat), 2 ≤ m →
    (k % m = 0 → inverseMod k m = .error .divisionByZero) ∧
    (k % m ≠ 0 → Int.gcd k m ≠ 1 → inverseMod k m = .error .noInverseExists) ∧
    (Int.gcd k m = 1 → ∃ x : Nat, x < m ∧ k * x % m = 1 ∧ inverseMod k m = .ok x)

/-- 40_field_montgomery.md R100: Rinv exists and is unique in [0, m), and the Montgomery product is a · b · Rinv mod m, in
[0, m). -/
def Obligations.MontgomeryProductIsReduced : Prop :=
  ∀ m : Nat, m % 2 = 1 → 3 ≤ m →
    ∃ rinv < m, Config.R * rinv % m = 1 ∧ (∀ x < m, Config.R * x % m = 1 → x = rinv) ∧
      ∀ a b : Nat, a < m → b < m → mont m a b = a * b * rinv % m ∧ mont m a b < m

/-- 40_field_montgomery.md R108: the consequences a host program may rely on. -/
def Obligations.MontgomeryConversions : Prop :=
  ∀ m x y : Nat, m % 2 = 1 → 3 ≤ m → x < m → y < m →
    mont m x (2 ^ (2 * Config.W) % m) = x * Config.R % m ∧
    (∃ rinv < m, Config.R * rinv % m = 1 ∧ mont m x 1 = x * rinv % m) ∧
    mont m (mont m x y) (2 ^ (2 * Config.W) % m) = x * y % m ∧
    mont m (x * Config.R % m) (y * Config.R % m) = x * y * Config.R % m

/-- 40_field_montgomery.md R107: Montgomery reduction with m' = (−m⁻¹) mod R and one final subtraction computes the product
of R100. -/
def Obligations.ReductionRefinesTheProduct : Prop :=
  ∀ m m' a b : Nat, m % 2 = 1 → 3 ≤ m → m < Config.R → m' < Config.R → (m * m' + 1) % Config.R = 0 →
    a < m → b < m → redc m m' a b = mont m a b ∧ redc m m' a b < m

/-- 42_curve_group.md R131, R130: addPoint, case by case, in the order of its pseudocode. -/
def Obligations.AddPointFollowsTheGroupLaw : Prop :=
  ∀ (c : Curve), 2 ≤ c.p →
    (∀ x y : Nat, isOnCurve c (.affine x y) = true ↔
      ((y : Int) * y - x * x * x - c.a * x - c.b) % c.p = 0) ∧
    isOnCurve c .identity = true ∧
    (∀ p q : Point, isOnCurve c p = false ∨ isOnCurve c q = false → addPoint c p q = .error .invalidPoint) ∧
    (∀ q : Point, isOnCurve c q = true → addPoint c .identity q = .ok q ∧ addPoint c q .identity = .ok q) ∧
    (∀ x1 y1 x2 y2 : Nat, isOnCurve c (.affine x1 y1) = true → isOnCurve c (.affine x2 y2) = true →
      (x1 = x2 → y1 ≠ y2 → addPoint c (.affine x1 y1) (.affine x2 y2) = .ok .identity) ∧
      (¬ (x1 = x2 ∧ y1 ≠ y2) →
        let den : Int := if x1 = x2 then 2 * y1 else (x1 : Int) - x2
        let num : Int := if x1 = x2 then 3 * x1 * x1 + c.a else (y1 : Int) - y2
        (den % c.p = 0 → addPoint c (.affine x1 y1) (.affine x2 y2) = .error .divisionByZero) ∧
        (den % c.p ≠ 0 → Int.gcd den c.p ≠ 1 →
          addPoint c (.affine x1 y1) (.affine x2 y2) = .error .noInverseExists) ∧
        (Int.gcd den c.p = 1 →
          ∃ inv : Nat, inv < c.p ∧ den * inv % c.p = 1 ∧
            let sl : Int := num * inv
            let rx : Int := sl * sl - x1 - x2
            let ry : Int := -(y1 + sl * (rx - x1))
            addPoint c (.affine x1 y1) (.affine x2 y2) = .ok (.affine (rx % c.p).toNat (ry % c.p).toNat))))

/-- 42_curve_group.md R137, 10_state.md R25: every point addPoint returns is on the curve, for a prime and a composite modulus
alike, and reduced when the operands are. -/
def Obligations.AddPointStaysOnTheCurve : Prop :=
  ∀ (c : Curve) (p q r : Point), 2 ≤ c.p → addPoint c p q = .ok r →
    isOnCurve c r = true ∧ (p.reduced c → q.reduced c → r.reduced c)

/-- 42_curve_group.md R139: with a prime modulus and reduced operands on the curve, no inverse is missing, and a division by
zero happens only when doubling a point with y = 0. -/
def Obligations.PrimeModulusHasEveryInverse : Prop :=
  ∀ (c : Curve) (p q : Point), c.p.Prime → c.p % 2 = 1 → p.reduced c → q.reduced c →
    isOnCurve c p = true → isOnCurve c q = true →
    addPoint c p q ≠ .error .noInverseExists ∧
    (addPoint c p q = .error .divisionByZero ↔ ∃ x, p = .affine x 0 ∧ q = .affine x 0)

/-- 42_curve_group.md R140: adding the identity, and adding the negative (x, −y mod P), which fails with DivisionByZero when
y = 0. -/
def Obligations.NegativeAndIdentityAreNeutral : Prop :=
  ∀ (c : Curve) (x y : Nat), c.p.Prime → c.p % 2 = 1 → x < c.p → y < c.p → isOnCurve c (.affine x y) = true →
    addPoint c (.affine x y) .identity = .ok (.affine x y) ∧
    (y ≠ 0 → addPoint c (.affine x y) (.affine x (c.p - y)) = .ok .identity) ∧
    (y = 0 → addPoint c (.affine x y) (.affine x 0) = .error .divisionByZero)

/-- 43_scalar_multiply.md R153: PMUL's arithmetic ends with InvalidPoint exactly when the point is not O, not on the curve and
the scalar is not a multiple of N. -/
def Obligations.InvalidPointExactlyWhenOffTheCurve : Prop :=
  ∀ (c : Curve) (order n : Nat) (pt : Point), 3 ≤ c.p → c.p % 2 = 1 → 1 ≤ order →
    (scalarMultiply c order n pt = .error .invalidPoint ↔
      pt ≠ .identity ∧ isOnCurve c pt = false ∧ n % order ≠ 0)

/-- 43_scalar_multiply.md R154: the loop's last doubling counts, so a point of order 2 times 1 ends with DivisionByZero. -/
def Obligations.LastDoublingOfAnOrderTwoPointFails : Prop :=
  ∀ (c : Curve) (order x : Nat), 3 ≤ c.p → c.p % 2 = 1 → 2 ≤ order → isOnCurve c (.affine x 0) = true →
    scalarMultiply c order 1 (.affine x 0) = .error .divisionByZero ∧
    addPoint c .identity (.affine x 0) = .ok (.affine x 0)

/-- 43_scalar_multiply.md R155, for a prime P and a non-singular curve, against the group of Mathlib's Weierstrass curves: a
result is n times the point when n mod N is not 0, and O when it is. -/
def Obligations.ScalarMultiplyIsTheGroupMultiple : Prop :=
  ∀ (c : Curve) [Fact c.p.Prime], c.p % 2 = 1 → c.nonsingular →
    ∀ (order n : Nat) (pt r : Point) (g : c.weierstrass.Point), 1 ≤ order → Represents c pt g →
      scalarMultiply c order n pt = .ok r →
      (n % order ≠ 0 → Represents c r (n • g)) ∧ (n % order = 0 → r = .identity)

/-- 43_scalar_multiply.md R156: distributivity and the symmetry of the exchange, for a prime P, a non-singular curve and N the
order of the base point g, whenever the multiplications end without an error. -/
def Obligations.ScalarsMultiplyAlongTheOrder : Prop :=
  ∀ (c : Curve) [Fact c.p.Prime], c.p % 2 = 1 → c.nonsingular →
    ∀ (order n m : Nat) (pt nq mq u v w : Point) (g : c.weierstrass.Point), 1 ≤ order → addOrderOf g = order →
      Represents c pt g →
      scalarMultiply c order m pt = .ok mq → scalarMultiply c order n mq = .ok u →
      scalarMultiply c order (n * m % order) pt = .ok v →
      scalarMultiply c order n pt = .ok nq → scalarMultiply c order m nq = .ok w →
      u = v ∧ u = w

/-! ### Commands -/

/-- 44_system.md R160: NOP commits nothing and completes with OK; its only word is 0. From STATUS = 0, STATUS is 2 afterwards. -/
def Obligations.NopOnlyCompletes : Prop :=
  (∀ w : Word, decode w = .ok .nop ↔ w = 0) ∧
  (∀ (s : State) (w : Word) (S : Registers) (k : Nat), s.engine = .busy w S k →
    exec .nop s = .next { s with ecode := .ok, done := true, engine := .idle }) ∧
  (∀ (s : State) (k : Nat), s.statusWord = 0 → ∃ t, exec .nop (s.accept 0 k) = .next t ∧ t.statusWord = 2)

/-- 40_field_montgomery.md R104: MMUL, with its checks in order; the last clause is its completion with a result. -/
def Obligations.MmulMultipliesInMontgomeryForm : Prop :=
  ∀ (d a b : Fin 16) (ms : ModSel) (s : State) (w : Word) (S : Registers) (k : Nat), s.engine = .busy w S k →
    let m := match ms with | .p => S.p.toNat | .n => S.n.toNat
    let x := S.v[a].toNat
    let y := S.v[b].toNat
    encode (.mmul d a b ms) &&& 0xFFE000FF = 0x00000001 ∧
    (m % 2 = 0 ∨ m < 3 → exec (.mmul d a b ms) s = .next (s.failed .badModulus)) ∧
    (¬(m % 2 = 0 ∨ m < 3) → x ≥ m ∨ y ≥ m → exec (.mmul d a b ms) s = .next (s.failed .operandRange)) ∧
    (¬(m % 2 = 0 ∨ m < 3) → x < m → y < m →
      ∃ rinv < m, Config.R * rinv % m = 1 ∧
        exec (.mmul d a b ms) s = .next (s.finished (s.regs.withValue d (x * y * rinv % m))))

/-- 40_field_montgomery.md R105: FSQR, with its checks in order; it is MMUL with both sources equal in every outcome. -/
def Obligations.FsqrSquaresInMontgomeryForm : Prop :=
  ∀ (d a : Fin 16) (ms : ModSel) (s : State) (w : Word) (S : Registers) (k : Nat), s.engine = .busy w S k →
    let m := match ms with | .p => S.p.toNat | .n => S.n.toNat
    let x := S.v[a].toNat
    encode (.fsqr d a ms) &&& 0xFFEF00FF = 0x00000002 ∧
    exec (.fsqr d a ms) s = exec (.mmul d a a ms) s ∧
    (m % 2 = 0 ∨ m < 3 → exec (.fsqr d a ms) s = .next (s.failed .badModulus)) ∧
    (¬(m % 2 = 0 ∨ m < 3) → x ≥ m → exec (.fsqr d a ms) s = .next (s.failed .operandRange)) ∧
    (¬(m % 2 = 0 ∨ m < 3) → x < m →
      ∃ rinv < m, Config.R * rinv % m = 1 ∧
        exec (.fsqr d a ms) s = .next (s.finished (s.regs.withValue d (x ^ 2 * rinv % m))))

/-- 40_field_montgomery.md R106: MR2. -/
def Obligations.Mr2WritesTheSquareOfTheRadix : Prop :=
  ∀ (d : Fin 16) (ms : ModSel) (s : State) (w : Word) (S : Registers) (k : Nat), s.engine = .busy w S k →
    let m := match ms with | .p => S.p.toNat | .n => S.n.toNat
    encode (.mr2 d ms) &&& 0xFFEFF0FF = 0x00000003 ∧
    (m % 2 = 0 ∨ m < 3 → exec (.mr2 d ms) s = .next (s.failed .badModulus)) ∧
    (¬(m % 2 = 0 ∨ m < 3) →
      exec (.mr2 d ms) s = .next (s.finished (s.regs.withValue d (Config.R * Config.R % m))))

/-- 41_modular_inverse.md R121: MINV, with its exceptions in order; the last clause is its completion with a result. -/
def Obligations.MinvWritesTheInverse : Prop :=
  ∀ (d a : Fin 16) (ms : ModSel) (s : State) (w : Word) (S : Registers) (k : Nat), s.engine = .busy w S k →
    let m := match ms with | .p => S.p.toNat | .n => S.n.toNat
    let x := S.v[a].toNat
    encode (.minv d a ms) &&& 0xFFEF00FF = 0x00000004 ∧
    (m < 2 → exec (.minv d a ms) s = .next (s.failed .badModulus)) ∧
    (2 ≤ m → x % m = 0 → exec (.minv d a ms) s = .next (s.failed .divisionByZero)) ∧
    (2 ≤ m → x % m ≠ 0 → Nat.gcd (x % m) m ≠ 1 → exec (.minv d a ms) s = .next (s.failed .noInverseExists)) ∧
    (2 ≤ m → Nat.gcd (x % m) m = 1 →
      ∃ y < m, x * y % m = 1 ∧ exec (.minv d a ms) s = .next (s.finished (s.regs.withValue d y)))

/-- 42_curve_group.md R134: PCHK writes only OC, and a point off the curve is no error. -/
def Obligations.PchkReportsMembership : Prop :=
  ∀ (a : Fin 8) (s : State) (w : Word) (S : Registers) (k : Nat), s.engine = .busy w S k →
    let x := S.v[pairX a].toNat
    let y := S.v[pairY a].toNat
    let P := S.p.toNat
    let bad := P % 2 = 0 ∨ P < 3
    encode (.pchk a) &&& 0xFFFF8FFF = 0x00000013 ∧
    (bad → exec (.pchk a) s = .next (s.failed .badModulus)) ∧
    (¬bad → S.inf.getLsbD a = true → exec (.pchk a) s = .next { s.finished s.regs with oc := true }) ∧
    (¬bad → S.inf.getLsbD a = false → x ≥ P ∨ y ≥ P → exec (.pchk a) s = .next (s.failed .operandRange)) ∧
    (¬bad → S.inf.getLsbD a = false → x < P → y < P →
      exec (.pchk a) s = .next { s.finished s.regs with
        oc := decide (((y : Int) * y - x * x * x - S.a.toNat * x - S.b.toNat) % P = 0) })

/-- 42_curve_group.md R135: PADD, with its exceptions in order, for every kind of operands. -/
def Obligations.PaddAddsPoints : Prop :=
  ∀ (d a b : Fin 8) (s : State) (w : Word) (S : Registers) (k : Nat), s.engine = .busy w S k →
    let P := S.p.toNat
    let bad := P % 2 = 0 ∨ P < 3
    let p := S.point a
    let q := S.point b
    encode (.padd d a b) &&& 0xFFF888FF = 0x00000010 ∧
    (bad → exec (.padd d a b) s = .next (s.failed .badModulus)) ∧
    (¬bad → ¬p.reduced S.curve ∨ ¬q.reduced S.curve → exec (.padd d a b) s = .next (s.failed .operandRange)) ∧
    (¬bad → p.reduced S.curve → q.reduced S.curve →
      (isOnCurve S.curve p = false ∨ isOnCurve S.curve q = false →
        exec (.padd d a b) s = .next (s.failed .invalidPoint)) ∧
      (isOnCurve S.curve p = true → isOnCurve S.curve q = true →
        (p = .identity → exec (.padd d a b) s = .next (s.finished (s.regs.writePoint d q))) ∧
        (q = .identity → exec (.padd d a b) s = .next (s.finished (s.regs.writePoint d p))) ∧
        (∀ x1 y1 x2 y2 : Nat, p = .affine x1 y1 → q = .affine x2 y2 →
          (x1 = x2 → y1 ≠ y2 → exec (.padd d a b) s = .next (s.finished (s.regs.writePoint d .identity))) ∧
          (¬ (x1 = x2 ∧ y1 ≠ y2) →
            let den : Int := if x1 = x2 then 2 * y1 else (x1 : Int) - x2
            let num : Int := if x1 = x2 then 3 * x1 * x1 + S.a.toNat else (y1 : Int) - y2
            (den % P = 0 → exec (.padd d a b) s = .next (s.failed .divisionByZero)) ∧
            (den % P ≠ 0 → Int.gcd den P ≠ 1 → exec (.padd d a b) s = .next (s.failed .noInverseExists)) ∧
            (Int.gcd den P = 1 →
              ∃ inv : Nat, inv < P ∧ den * inv % P = 1 ∧
                let sl : Int := num * inv
                let rx : Int := sl * sl - x1 - x2
                let ry : Int := -(y1 + sl * (rx - x1))
                exec (.padd d a b) s =
                  .next (s.finished (s.regs.writePoint d (.affine (rx % P).toNat (ry % P).toNat))))))))

/-- 42_curve_group.md R136: PDBL, with its exceptions in order; it is PADD with both sources equal in every outcome. -/
def Obligations.PdblDoublesPoints : Prop :=
  ∀ (d a : Fin 8) (s : State) (w : Word) (S : Registers) (k : Nat), s.engine = .busy w S k →
    let P := S.p.toNat
    let bad := P % 2 = 0 ∨ P < 3
    encode (.pdbl d a) &&& 0xFFFF88FF = 0x00000011 ∧
    exec (.pdbl d a) s = exec (.padd d a a) s ∧
    (bad → exec (.pdbl d a) s = .next (s.failed .badModulus)) ∧
    (¬bad → S.point a = .identity → exec (.pdbl d a) s = .next (s.finished (s.regs.writePoint d .identity))) ∧
    (¬bad → ∀ x y : Nat, S.point a = .affine x y →
      (x ≥ P ∨ y ≥ P → exec (.pdbl d a) s = .next (s.failed .operandRange)) ∧
      (x < P → y < P → isOnCurve S.curve (.affine x y) = false →
        exec (.pdbl d a) s = .next (s.failed .invalidPoint)) ∧
      (x < P → y < P → isOnCurve S.curve (.affine x y) = true → y = 0 →
        exec (.pdbl d a) s = .next (s.failed .divisionByZero)) ∧
      (x < P → y < P → isOnCurve S.curve (.affine x y) = true → y ≠ 0 → Nat.gcd (2 * y) P ≠ 1 →
        exec (.pdbl d a) s = .next (s.failed .noInverseExists)) ∧
      (x < P → y < P → isOnCurve S.curve (.affine x y) = true → Nat.gcd (2 * y) P = 1 →
        ∃ inv : Nat, inv < P ∧ 2 * y * inv % P = 1 ∧
          let sl : Int := (3 * x * x + S.a.toNat) * inv
          let rx : Int := sl * sl - x - x
          let ry : Int := -(y + sl * (rx - x))
          exec (.pdbl d a) s =
            .next (s.finished (s.regs.writePoint d (.affine (rx % P).toNat (ry % P).toNat)))))

/-- 42_curve_group.md R138: doubling a point with y = 0 ends with DivisionByZero and writes nothing, by PDBL and by PADD. -/
def Obligations.DoublingAnOrderTwoPointFails : Prop :=
  ∀ (d a : Fin 8) (s : State) (w : Word) (S : Registers) (k x : Nat), s.engine = .busy w S k →
    S.p.toNat % 2 = 1 → 3 ≤ S.p.toNat → x < S.p.toNat → S.point a = .affine x 0 →
    isOnCurve S.curve (.affine x 0) = true →
    exec (.pdbl d a) s = .next (s.failed .divisionByZero) ∧
    exec (.padd d a a) s = .next (s.failed .divisionByZero)

/-- 43_scalar_multiply.md R151, R152: PMUL's checks in order, then the shortcut, then the outcome of scalarMultiply. -/
def Obligations.PmulChecksThenMultiplies : Prop :=
  ∀ (d a : Fin 8) (b : Fin 16) (s : State) (w : Word) (S : Registers) (k : Nat), s.engine = .busy w S k →
    let P := S.p.toNat
    let N := S.n.toNat
    let n := S.v[b].toNat
    let pt := S.point a
    let bad := P % 2 = 0 ∨ P < 3 ∨ N = 0
    encode (.pmul d a b) &&& 0xFFF088FF = 0x00000012 ∧
    (bad → exec (.pmul d a b) s = .next (s.failed .badModulus)) ∧
    (¬bad → ¬pt.reduced S.curve → exec (.pmul d a b) s = .next (s.failed .operandRange)) ∧
    (¬bad → pt.reduced S.curve → n % N = 0 ∨ pt = .identity →
      exec (.pmul d a b) s = .next (s.finished (s.regs.writePoint d .identity))) ∧
    (¬bad → pt.reduced S.curve → n % N ≠ 0 → isOnCurve S.curve pt = false →
      exec (.pmul d a b) s = .next (s.failed .invalidPoint)) ∧
    (¬bad → pt.reduced S.curve → ∀ e, scalarMultiply S.curve N n pt = .error e →
      exec (.pmul d a b) s = .next (s.failed e)) ∧
    (¬bad → pt.reduced S.curve → ∀ r, scalarMultiply S.curve N n pt = .ok r →
      exec (.pmul d a b) s = .next (s.finished (s.regs.writePoint d r)))

/-- 43_scalar_multiply.md R150: PMUL's loop, told by the sequence of its accumulators and addends over the bits of n from the
least significant up: it always doubles the addend, it adds the addend for a set bit, and the first error ends it. -/
def Obligations.PmulRunsOverTheBitsOfTheScalar : Prop :=
  ∀ (d a : Fin 8) (b : Fin 16) (s : State) (w : Word) (S : Registers) (k : Nat) (acc addend : Nat → Point) (j : Nat),
    s.engine = .busy w S k →
    let c := S.curve
    let n := S.v[b].toNat
    S.p.toNat % 2 = 1 → 3 ≤ S.p.toNat → (S.point a).reduced c → S.point a ≠ .identity →
    S.n.toNat ≠ 0 → n % S.n.toNat ≠ 0 →
    acc 0 = .identity → addend 0 = S.point a →
    (∀ i < j, addPoint c (addend i) (addend i) = .ok (addend (i + 1)) ∧
      (n.testBit i = true → addPoint c (acc i) (addend i) = .ok (acc (i + 1))) ∧
      (n.testBit i = false → acc (i + 1) = acc i)) →
    (j = bitlen n → exec (.pmul d a b) s = .next (s.finished (s.regs.writePoint d (acc j)))) ∧
    (∀ e, j < bitlen n → n.testBit j = true → addPoint c (acc j) (addend j) = .error e →
      exec (.pmul d a b) s = .next (s.failed e)) ∧
    (∀ e r, j < bitlen n → (n.testBit j = true → addPoint c (acc j) (addend j) = .ok r) →
      addPoint c (addend j) (addend j) = .error e → exec (.pmul d a b) s = .next (s.failed e))

/-! ### Completion -/

/-- 60_exceptions.md R172, R173, R174: every command completes, all or nothing: with an error it writes the completion fields
and nothing else; with success it also writes its commit, and ERR is not changed. -/
def Obligations.CommandsCompleteAllOrNothing : Prop :=
  ∀ (i : Instr) (s : State),
    (∃ e : CommandError, exec i s = .next { s with ecode := .error e, err := true, done := true, engine := .idle }) ∨
    (∃ (regs : Registers) (oc : Bool),
      exec i s = .next { s with regs := regs, oc := oc, ecode := .ok, done := true, engine := .idle })

/-- 10_state.md R22, R23, R26, R30: what a command leaves unchanged. Value registers other than its destination, identity flags
other than its pair's, the configuration registers, OC (but for PCHK), CTRL.IE, WERR, CMD, the host and the draw counter keep
their values; a Montgomery command or MINV leaves every flag I[j], also of the pair its destination is in. -/
def Obligations.CommandsLeaveTheRestUnchanged : Prop :=
  ∀ (i : Instr) (s t : State), exec i s = .next t →
    (∀ r : Fin 16, r ∉ destinations i → t.regs.v[r] = s.regs.v[r]) ∧
    (∀ j : Fin 8, flagDestination i ≠ some j → t.regs.inf.getLsbD j = s.regs.inf.getLsbD j) ∧
    t.regs.p = s.regs.p ∧ t.regs.a = s.regs.a ∧ t.regs.b = s.regs.b ∧ t.regs.n = s.regs.n ∧
    ((∀ a, i ≠ .pchk a) → t.oc = s.oc) ∧
    t.ie = s.ie ∧ t.werr = s.werr ∧ t.cmd = s.cmd ∧ t.host = s.host ∧ t.draws = s.draws

/-- 10_state.md R43, R41: the outcome is determined by the snapshot. Two machines with the same snapshot end the same command
with the same code, and write the same values to the same registers. -/
def Obligations.OutcomeDependsOnTheSnapshotOnly : Prop :=
  ∀ (i : Instr) (s s' t t' : State) (w w' : Word) (S : Registers) (k k' : Nat),
    s.engine = .busy w S k → s'.engine = .busy w' S k' → exec i s = .next t → exec i s' = .next t' →
    t.ecode = t'.ecode ∧
    (t.ecode = .ok → (∀ r ∈ destinations i, t.regs.v[r] = t'.regs.v[r]) ∧
      (∀ j, flagDestination i = some j → t.regs.inf.getLsbD j = t'.regs.inf.getLsbD j) ∧
      (∀ a, i = .pchk a → t.oc = t'.oc))

/-- 10_state.md R25: the identity is written as the flag and two zero coordinates, an affine point as its coordinates and a clear
flag; every other value register and flag, and P, A, B and N, keep their values. -/
def Obligations.WritePointEncodesTheIdentity : Prop :=
  ∀ (r : Registers) (j : Fin 8),
    ((r.writePoint j .identity).inf.getLsbD j = true ∧ (r.writePoint j .identity).v[pairX j] = 0 ∧
      (r.writePoint j .identity).v[pairY j] = 0 ∧ (r.writePoint j .identity).point j = .identity) ∧
    (∀ x y : Nat, x < Config.R → y < Config.R →
      (r.writePoint j (.affine x y)).inf.getLsbD j = false ∧ (r.writePoint j (.affine x y)).v[pairX j].toNat = x ∧
      (r.writePoint j (.affine x y)).v[pairY j].toNat = y ∧ (r.writePoint j (.affine x y)).point j = .affine x y) ∧
    (∀ (pt : Point) (i : Fin 16), i ≠ pairX j → i ≠ pairY j → (r.writePoint j pt).v[i] = r.v[i]) ∧
    (∀ (pt : Point) (i : Fin 8), i ≠ j → (r.writePoint j pt).inf.getLsbD i = r.inf.getLsbD i) ∧
    (∀ pt : Point, (r.writePoint j pt).p = r.p ∧ (r.writePoint j pt).a = r.a ∧ (r.writePoint j pt).b = r.b ∧
      (r.writePoint j pt).n = r.n)

/-- 10_state.md R40, R35, R41: a legal word written to CMD while IDLE is accepted: CMD records it, DONE is cleared, the engine
holds the word and a snapshot of the registers; ERR, OC, WERR and ECODE keep their values. The delay and the draw counter are
the model's (log 1). -/
def Obligations.LegalWordsAreAccepted : Prop :=
  ∀ (s : State) (w : Word), s.engine = .idle → legal w = true →
    ∃ delay : Nat,
      s.busWrite 0x00C w =
        { s with cmd := w, done := false, engine := .busy w s.regs delay, draws := s.draws + 1 }

/-- 30_encoding.md R87, 10_state.md R40: an illegal word completes at once with IllegalCommand and never makes the engine BUSY. -/
def Obligations.IllegalWordsCompleteAtOnce : Prop :=
  ∀ (s : State) (w : Word), s.engine = .idle → legal w = false →
    s.busWrite 0x00C w =
      { s with cmd := w, ecode := .error .illegalCommand, err := true, done := true, engine := .idle }

/-! ### The bus -/

/-- 20_memory.md R65: what a read of each offset of the window returns, also while BUSY (R72), and that a read is never dropped and
changes nothing but what the host has read. -/
def Obligations.BusReadReturnsTheMappedRegister : Prop :=
  ∀ s : State,
    (∀ (i : Fin 16) (k : Fin 8),
      s.busRead (BitVec.ofNat 12 (0x400 + 0x80 * i + 4 * k)) = s.regs.v[i].extractLsb' (32 * k) 32) ∧
    (∀ k : Fin 8,
      s.busRead (BitVec.ofNat 12 (0xC00 + 4 * k)) = s.regs.p.extractLsb' (32 * k) 32 ∧
      s.busRead (BitVec.ofNat 12 (0xC80 + 4 * k)) = s.regs.a.extractLsb' (32 * k) 32 ∧
      s.busRead (BitVec.ofNat 12 (0xD00 + 4 * k)) = s.regs.b.extractLsb' (32 * k) 32 ∧
      s.busRead (BitVec.ofNat 12 (0xD80 + 4 * k)) = s.regs.n.extractLsb' (32 * k) 32) ∧
    s.busRead 0x000 = 0xEC010100 ∧
    (s.busRead 0x004).toNat = 2 * s.ie.toNat ∧
    (s.busRead 0x008).toNat = s.busy.toNat + 2 * s.done.toNat + 4 * s.err.toNat + 8 * s.oc.toNat
      + 16 * s.werr.toNat + 256 * s.ecode.number.toNat ∧
    s.busRead 0x00C = s.cmd ∧
    (s.busRead 0x010).toNat = s.regs.inf.toNat ∧
    (∀ slot k : Nat, slot < 20 → 8 ≤ k → k < 32 → s.busRead (BitVec.ofNat 12 (0x400 + 0x80 * slot + 4 * k)) = 0) ∧
    (∀ o : Nat, o % 4 = 0 → (0x014 ≤ o ∧ o < 0x400) ∨ (0xE00 ≤ o ∧ o < 0x1000) →
      s.busRead (BitVec.ofNat 12 o) = 0) ∧
    (∀ off : Offset, off.toNat % 4 = 0 →
      s.hostRead off .word =
        { s with host := { s.host with last := s.busRead off, response := .data (s.busRead off) } })

/-- 20_memory.md R62, R67: a register's value is the little-endian reading of its words in address order. -/
def Obligations.RegisterIsItsWordsInOrder : Prop :=
  ∀ (s : State) (i : Fin 16),
    s.regs.v[i].toNat =
      ((List.range 8).map fun k => (s.busRead (BitVec.ofNat 12 (0x400 + 0x80 * i + 4 * k))).toNat * 2 ^ (32 * k)).sum

/-- 20_memory.md R66, 10_state.md R24: while IDLE, a write to one word of a value or configuration register changes only those 32
bits, and a write to PTINF changes only I[7:0]. -/
def Obligations.BusWriteChangesOneWord : Prop :=
  ∀ (s : State) (w : Word), s.engine = .idle →
    (∀ (i : Fin 16) (k : Fin 8), ∃ x : Value,
      s.busWrite (BitVec.ofNat 12 (0x400 + 0x80 * i + 4 * k)) w =
        { s with regs := { s.regs with v := s.regs.v.set i x } } ∧
      x.extractLsb' (32 * k) 32 = w ∧
      ∀ k' : Fin 8, k' ≠ k → x.extractLsb' (32 * k') 32 = s.regs.v[i].extractLsb' (32 * k') 32) ∧
    (∀ k : Fin 8, ∃ p a b n : Value,
      s.busWrite (BitVec.ofNat 12 (0xC00 + 4 * k)) w = { s with regs := { s.regs with p := p } } ∧
      s.busWrite (BitVec.ofNat 12 (0xC80 + 4 * k)) w = { s with regs := { s.regs with a := a } } ∧
      s.busWrite (BitVec.ofNat 12 (0xD00 + 4 * k)) w = { s with regs := { s.regs with b := b } } ∧
      s.busWrite (BitVec.ofNat 12 (0xD80 + 4 * k)) w = { s with regs := { s.regs with n := n } } ∧
      p.extractLsb' (32 * k) 32 = w ∧ a.extractLsb' (32 * k) 32 = w ∧ b.extractLsb' (32 * k) 32 = w ∧
      n.extractLsb' (32 * k) 32 = w ∧
      ∀ k' : Fin 8, k' ≠ k →
        p.extractLsb' (32 * k') 32 = s.regs.p.extractLsb' (32 * k') 32 ∧
        a.extractLsb' (32 * k') 32 = s.regs.a.extractLsb' (32 * k') 32 ∧
        b.extractLsb' (32 * k') 32 = s.regs.b.extractLsb' (32 * k') 32 ∧
        n.extractLsb' (32 * k') 32 = s.regs.n.extractLsb' (32 * k') 32) ∧
    s.busWrite 0x010 w = { s with regs := { s.regs with inf := w.extractLsb' 0 8 } }

/-- 20_memory.md R64, 10_state.md R31: writes to ID, to reserved offsets and to unused slot words are ignored, BUSY or not, and
never set WERR. -/
def Obligations.UnusedOffsetsIgnoreWrites : Prop :=
  ∀ (s : State) (w : Word),
    s.busWrite 0x000 w = s ∧
    (∀ slot k : Nat, slot < 20 → 8 ≤ k → k < 32 → s.busWrite (BitVec.ofNat 12 (0x400 + 0x80 * slot + 4 * k)) w = s) ∧
    (∀ o : Nat, o % 4 = 0 → (0x014 ≤ o ∧ o < 0x400) ∨ (0xE00 ≤ o ∧ o < 0x1000) →
      s.busWrite (BitVec.ofNat 12 o) w = s)

/-- 20_memory.md R71: while BUSY, a write to CMD, PTINF, a value slot word or a configuration slot word is dropped and sets
WERR. -/
def Obligations.WritesWhileBusyAreDropped : Prop :=
  ∀ (s : State) (w word : Word) (S : Registers) (delay : Nat), s.engine = .busy word S delay →
    s.busWrite 0x00C w = { s with werr := true } ∧
    s.busWrite 0x010 w = { s with werr := true } ∧
    ∀ slot k : Nat, slot < 20 → k < 8 →
      s.busWrite (BitVec.ofNat 12 (0x400 + 0x80 * slot + 4 * k)) w = { s with werr := true }

/-- 10_state.md R34: a STATUS write clears DONE, ERR and WERR where it carries 1 and changes nothing else, BUSY or not. -/
def Obligations.StatusBitsClearByWritingOne : Prop :=
  ∀ (s : State) (w : Word),
    s.busWrite 0x008 w =
      { s with
        done := if w.getLsbD 1 then false else s.done
        err := if w.getLsbD 2 then false else s.err
        werr := if w.getLsbD 4 then false else s.werr }

/-- 70_reset_and_hazards.md R192, 10_state.md R32, R44: a CTRL write with bit 0 = 1 resets softly, BUSY or not: the command in
flight is discarded, STATUS and CMD become 0, IE is bit 1, the data registers keep their values; with bit 0 = 0 only IE
changes. -/
def Obligations.CtrlWriteResetsSoftly : Prop :=
  ∀ (s : State) (w : Word),
    (w.getLsbD 0 = true →
      s.busWrite 0x004 w =
        { s with
          engine := .idle, done := false, err := false, oc := false, werr := false, ecode := .ok, cmd := 0,
          ie := w.getLsbD 1 } ∧
      (s.busWrite 0x004 w).statusWord = 0 ∧ (s.busWrite 0x004 w).irq = false) ∧
    (w.getLsbD 0 = false → s.busWrite 0x004 w = { s with ie := w.getLsbD 1 })

/-- 20_memory.md R68, 60_exceptions.md R187: an access that is not 32 bits wide (one that is wider: log 18) or not at a multiple of 4 gets the error
response, with read data 0, and changes nothing in the block, BUSY or not; that the host goes on is the model's choice (log 6),
and the host's step brings a command in flight nearer to its completion (log 1). -/
def Obligations.RefusedAccessesChangeNothing : Prop :=
  ∀ (s : State) (off : Offset) (width : Width) (data : HostData), s.hostsTurn = true →
    width ≠ .word ∨ off.toNat % 4 ≠ 0 →
    (s.nextHostOp = some (.rd off width) →
      step s = .next { s with
        engine := s.engine.tick
        host := { s.host with pc := s.host.pc + 1, last := 0, response := .error } }) ∧
    (s.nextHostOp = some (.wr off width data) →
      step s = .next { s with
        engine := s.engine.tick
        host := { s.host with pc := s.host.pc + 1, response := .error } })

/-- 20_memory.md R60, 00_scope.md R9: the window's 4096 bus addresses start at BASE, which is 4 KiB aligned, and each selects its
own offset; no other address selects the block. -/
def Obligations.WindowStartsAtBase : Prop :=
  Config.base % 4096 = 0 ∧
  (∀ off : Offset, windowOffset (busAddress off) = some off) ∧
  (∀ addr : Nat, ∀ off : Offset, windowOffset addr = some off → addr = busAddress off)

/-- 10_state.md R45, 60_exceptions.md R177, R178: IRQ is CTRL.IE and STATUS.DONE, whatever ERR and WERR are: every completion with
IE = 1 raises it, and clearing DONE, the next acceptance and both resets lower it. -/
def Obligations.InterruptFollowsDone : Prop :=
  (∀ s : State, s.irq = (s.ie && s.done)) ∧
  (∀ (i : Instr) (s : State), ∃ t, exec i s = .next t ∧ t.irq = s.ie) ∧
  (∀ (s : State) (w : Word), w.getLsbD 1 = true → (s.busWrite 0x008 w).irq = false) ∧
  (∀ (s : State) (w : Word), s.engine = .idle → legal w = true → (s.busWrite 0x00C w).irq = false) ∧
  (∀ (s : State) (w : Word), w.getLsbD 0 = true → (s.busWrite 0x004 w).irq = false) ∧
  (∀ s : State, s.hardReset.irq = false)

/-! ### Reset, steps and invariants -/

/-- 10_state.md R46: the reset value of every piece of the block's state; with these values every command but NOP ends with
BadModulus. -/
def Obligations.ResetValues : Prop :=
  (∀ i : Fin 16, State.reset.regs.v[i] = 0) ∧ (∀ j : Fin 8, State.reset.regs.inf.getLsbD j = false) ∧
  State.reset.regs.p = 0 ∧ State.reset.regs.a = 0 ∧ State.reset.regs.b = 0 ∧ State.reset.regs.n = 0 ∧
  State.reset.ie = false ∧ State.reset.busy = false ∧ State.reset.done = false ∧ State.reset.err = false ∧
  State.reset.oc = false ∧ State.reset.werr = false ∧ State.reset.ecode = .ok ∧ State.reset.cmd = 0 ∧
  State.reset.engine = .idle ∧ State.reset.irq = false ∧ State.reset.busRead 0x000 = 0xEC010100 ∧
  ∀ (i : Instr) (s : State) (w : Word) (S : Registers) (k : Nat), s.engine = .busy w S k → S.p = 0 → S.n = 0 → i ≠ .nop →
    exec i s = .next (s.failed .badModulus)

/-- 70_reset_and_hazards.md R191: the hard reset sets every piece of the block's state to its reset value, also while a command
is in flight, which is discarded; the host's script goes on (the model's choice, log 9). -/
def Obligations.HardResetClearsTheBlock : Prop :=
  ∀ (s : State), s.nextHostOp = some .hardReset →
    s.hostsTurn = true →
    step s = .next { State.reset with host := { s.host with pc := s.host.pc + 1 }, draws := s.draws }

/-- 10_state.md R43: when a BUSY engine's turn comes, the step is the completion of the command its word decodes to; the model's
engine has its turn when its delay has run out or the host has no operation left (log 1, log 16). -/
def Obligations.StepRunsTheAcceptedCommand : Prop :=
  ∀ (s : State) (w : Word) (S : Registers) (k : Nat) (i : Instr), s.engine = .busy w S k →
    k = 0 ∨ s.nextHostOp = none → decode w = .ok i → step s = exec i s

/-- The next step of `withFetchWord` runs the command of the table word (log 3), and what it runs on is the state the word's
acceptance leaves. -/
def Obligations.FetchWordIsRunNext : Prop :=
  ∀ (s : State) (w : Nat) (i : Instr), w < 2 ^ 32 → decodeTableWord 32 w = some i →
    step (s.withFetchWord 32 w) = exec i (s.withFetchWord 32 w) ∧
    s.withFetchWord 32 w =
      { s with cmd := BitVec.ofNat 32 w, done := false, engine := .busy (BitVec.ofNat 32 w) s.regs 0 }

/-- 20_memory.md R65, R70, R73, 30_encoding.md R90: the host's turn, operation by operation. A read changes nothing but what the
host has read; a served write is the bus write of the word it carries, be it a constant or the last value read masked (R91);
a branch moves the host only. A host step brings a command in flight nearer
to its completion (log 1); with no operation left and no command in flight nothing happens (log 16). -/
def Obligations.StepPerformsTheHostOperation : Prop :=
  ∀ s : State,
    (s.engine = .idle → s.nextHostOp = none → step s = .next s) ∧
    (s.hostsTurn = true →
      (∀ off : Offset, off.toNat % 4 = 0 → s.nextHostOp = some (.rd off .word) →
        step s = .next { s with
          engine := s.engine.tick
          host := { s.host with pc := s.host.pc + 1, last := s.busRead off, response := .data (s.busRead off) } }) ∧
      (∀ (off : Offset) (data : HostData), off.toNat % 4 = 0 → s.nextHostOp = some (.wr off .word data) →
        let w : Word := match data with
          | .lit w => w
          | .lastAndNot mask => s.host.last &&& ~~~mask
          | .lastOr mask => s.host.last ||| mask
        ∃ t, step s = .next t ∧ { t with host := s.host } = State.busWrite off w { s with engine := s.engine.tick } ∧
          t.host = { s.host with pc := s.host.pc + 1, response := .written }) ∧
      (∀ (mask : Word) (target : Nat), s.nextHostOp = some (.bnz mask target) →
        step s = .next { s with
          engine := s.engine.tick
          host := { s.host with pc := if s.host.last &&& mask = 0 then s.host.pc + 1 else target } }) ∧
      (∀ (mask : Word) (target : Nat), s.nextHostOp = some (.bz mask target) →
        step s = .next { s with
          engine := s.engine.tick
          host := { s.host with pc := if s.host.last &&& mask = 0 then target else s.host.pc + 1 } }))

/-- 20_memory.md R72, R71, 10_state.md R41: while BUSY, no host operation but a reset reaches the registers, CMD, OC, ECODE, IE
aside, or the command in flight. That it brings the completion one step nearer is the model's choice (log 1). -/
def Obligations.BusyEngineIsUndisturbed : Prop :=
  ∀ (s : State) (w : Word) (S : Registers) (k : Nat) (op : HostOp), s.engine = .busy w S (k + 1) →
    s.nextHostOp = some op → resets s.host.last op = false →
    ∃ t, step s = .next t ∧ t.engine = .busy w S k ∧ t.regs = s.regs ∧ t.cmd = s.cmd ∧ t.oc = s.oc ∧
      t.ecode = s.ecode ∧ t.draws = s.draws ∧ (t.done = true → s.done = true) ∧ (t.err = true → s.err = true)

/-- 93_implementation_defined.md part 2: there is no stuck state; every step answers a next state. -/
def Obligations.EveryStepGoesOn : Prop :=
  ∀ s : State, ∃ t, step s = .next t

/-- 70_reset_and_hazards.md R203: every accepted command completes, or is aborted or reset, within the host steps its delay
allows and one more; the delay is the model's free value (log 1). -/
def Obligations.AcceptedCommandsEnd : Prop :=
  ∀ (s : State) (w : Word) (S : Registers) (k : Nat), s.engine = .busy w S k →
    ∃ n t, 1 ≤ n ∧ n ≤ k + 1 ∧ leadsTo n s t ∧ t.engine = .idle

/-- 10_state.md R41, R43, 20_memory.md R69, R72: every step keeps coherence: while a command is in flight its word is legal and
stands in CMD, the registers are what the snapshot copied, and DONE is 0. -/
def Obligations.CoherenceIsKept : Prop :=
  ∀ s t : State, s.coherent = true → step s = .next t → t.coherent = true

/-- The state after reset is coherent. -/
def Obligations.ResetIsCoherent : Prop :=
  State.reset.coherent = true ∧ State.reset.irq = false

/-- 10_state.md R40, R45, 20_memory.md R69: a run from a coherent state is safe whatever the host's program, and on it the
interrupt output is never high while a command is in flight. -/
def Obligations.RunsFromCoherentStatesAreSafe : Prop :=
  ∀ (n : Nat) (s : State), s.coherent = true →
    SafeRun n s ∧ ∀ k t, k ≤ n → leadsTo k s t → t.irq = true → t.engine = .idle

/-! ### Host programs -/

/-- 30_encoding.md R91, 20_memory.md R74: `wait` after a command is left, whatever the command's latency, with the command
completed: its registers, OC, code and flags are those of its completion from the state the wait began in. -/
def Obligations.WaitEndsWithTheResult : Prop :=
  ∀ (s t : State) (w : Word) (S : Registers) (k : Nat) (i : Instr) (before after : List HostOp), s.engine = .busy w S k →
    decode w = .ok i → exec i s = .next t →
    s.host.program = before ++ waitLines before.length ++ after → s.host.pc = before.length →
    ∃ n u, leadsTo n s u ∧ u.engine = .idle ∧ u.host.pc = before.length + 2 ∧ u.host.program = s.host.program ∧
      u.regs = t.regs ∧ u.oc = t.oc ∧ u.ecode = t.ecode ∧ u.done = true ∧ u.err = t.err ∧ u.cmd = s.cmd

/-- 30_encoding.md R91: `ldv vI, X` writes X to V[I], word by word, and nothing else in the block. -/
def Obligations.LdvLoadsTheRegister : Prop :=
  ∀ (s : State) (i : Fin 16) (x : Value) (before after : List HostOp), s.engine = .idle →
    s.host.program = before ++ ldvLines i x ++ after → s.host.pc = before.length →
    leadsTo 8 s
      { s with
        regs := { s.regs with v := s.regs.v.set i x }
        host := { s.host with pc := before.length + 8, response := .written } }

/-- 30_encoding.md R91: `ldq qJ, O` sets I[J] and keeps the other flags. -/
def Obligations.LdqSetsTheIdentityFlag : Prop :=
  ∀ (s : State) (j : Fin 8) (before after : List HostOp), s.engine = .idle →
    s.host.program = before ++ ldqIdentityLines j ++ after → s.host.pc = before.length →
    ∃ t, leadsTo 2 s t ∧ t.engine = .idle ∧ t.host.pc = before.length + 2 ∧ t.regs.v = s.regs.v ∧
      t.regs.point j = .identity ∧ ∀ i : Fin 8, i ≠ j → t.regs.inf.getLsbD i = s.regs.inf.getLsbD i

/-- 30_encoding.md R91, 40_field_montgomery.md R108: the pseudo-instruction `modmul` computes the plain product modulo m, whatever
the latencies of its three commands. The scratch register differs from the destination too: with vT = vD the expansion cannot
leave both effects (log 11). -/
def Obligations.ModmulComputesThePlainProduct : Prop :=
  ∀ (s : State) (ms : ModSel) (d a b t : Fin 16) (before after : List HostOp), s.engine = .idle →
    let m := match ms with | .p => s.regs.p.toNat | .n => s.regs.n.toNat
    let x := s.regs.v[a].toNat
    let y := s.regs.v[b].toNat
    t ≠ a → t ≠ b → t ≠ d → m % 2 = 1 → 3 ≤ m → x < m → y < m →
    s.host.program = before ++ modmulLines before.length ms d a b t ++ after → s.host.pc = before.length →
    ∃ n u, leadsTo n s u ∧ u.engine = .idle ∧ u.host.pc = before.length + 9 ∧ u.ecode = .ok ∧
      u.regs.v[d].toNat = x * y % m ∧ u.regs.v[t].toNat = Config.R * Config.R % m ∧
      ∀ r : Fin 16, r ≠ d → r ≠ t → u.regs.v[r] = s.regs.v[r]
end

