-- ==== Sys2Proof/Laws/State.lean ====
section
/-! SUPPORT. One lemma per field per state update, each true by rfl, so that no later proof unfolds a record update. -/

namespace Sys2Proof.Machine

variable (s : State)

/-! ### State.completeError -/

@[simp] theorem State.completeError_regs (e : CommandError) : (s.completeError e).regs = s.regs := rfl
@[simp] theorem State.completeError_ie (e : CommandError) : (s.completeError e).ie = s.ie := rfl
@[simp] theorem State.completeError_done (e : CommandError) : (s.completeError e).done = true := rfl
@[simp] theorem State.completeError_err (e : CommandError) : (s.completeError e).err = true := rfl
@[simp] theorem State.completeError_oc (e : CommandError) : (s.completeError e).oc = s.oc := rfl
@[simp] theorem State.completeError_werr (e : CommandError) : (s.completeError e).werr = s.werr := rfl
@[simp] theorem State.completeError_ecode (e : CommandError) : (s.completeError e).ecode = .error e := rfl
@[simp] theorem State.completeError_cmd (e : CommandError) : (s.completeError e).cmd = s.cmd := rfl
@[simp] theorem State.completeError_engine (e : CommandError) : (s.completeError e).engine = .idle := rfl
@[simp] theorem State.completeError_host (e : CommandError) : (s.completeError e).host = s.host := rfl
@[simp] theorem State.completeError_draws (e : CommandError) : (s.completeError e).draws = s.draws := rfl

/-! ### State.failed -/

@[simp] theorem State.failed_regs (e : CommandError) : (s.failed e).regs = s.regs := rfl
@[simp] theorem State.failed_ie (e : CommandError) : (s.failed e).ie = s.ie := rfl
@[simp] theorem State.failed_done (e : CommandError) : (s.failed e).done = true := rfl
@[simp] theorem State.failed_err (e : CommandError) : (s.failed e).err = true := rfl
@[simp] theorem State.failed_oc (e : CommandError) : (s.failed e).oc = s.oc := rfl
@[simp] theorem State.failed_werr (e : CommandError) : (s.failed e).werr = s.werr := rfl
@[simp] theorem State.failed_ecode (e : CommandError) : (s.failed e).ecode = .error e := rfl
@[simp] theorem State.failed_cmd (e : CommandError) : (s.failed e).cmd = s.cmd := rfl
@[simp] theorem State.failed_engine (e : CommandError) : (s.failed e).engine = .idle := rfl
@[simp] theorem State.failed_host (e : CommandError) : (s.failed e).host = s.host := rfl
@[simp] theorem State.failed_draws (e : CommandError) : (s.failed e).draws = s.draws := rfl

/-! ### State.finished -/

@[simp] theorem State.finished_regs (r : Registers) : (s.finished r).regs = r := rfl
@[simp] theorem State.finished_ie (r : Registers) : (s.finished r).ie = s.ie := rfl
@[simp] theorem State.finished_done (r : Registers) : (s.finished r).done = true := rfl
@[simp] theorem State.finished_err (r : Registers) : (s.finished r).err = s.err := rfl
@[simp] theorem State.finished_oc (r : Registers) : (s.finished r).oc = s.oc := rfl
@[simp] theorem State.finished_werr (r : Registers) : (s.finished r).werr = s.werr := rfl
@[simp] theorem State.finished_ecode (r : Registers) : (s.finished r).ecode = .ok := rfl
@[simp] theorem State.finished_cmd (r : Registers) : (s.finished r).cmd = s.cmd := rfl
@[simp] theorem State.finished_engine (r : Registers) : (s.finished r).engine = .idle := rfl
@[simp] theorem State.finished_host (r : Registers) : (s.finished r).host = s.host := rfl
@[simp] theorem State.finished_draws (r : Registers) : (s.finished r).draws = s.draws := rfl

/-! ### State.accept -/

@[simp] theorem State.accept_regs (w : Word) (k : Nat) : (s.accept w k).regs = s.regs := rfl
@[simp] theorem State.accept_ie (w : Word) (k : Nat) : (s.accept w k).ie = s.ie := rfl
@[simp] theorem State.accept_done (w : Word) (k : Nat) : (s.accept w k).done = false := rfl
@[simp] theorem State.accept_err (w : Word) (k : Nat) : (s.accept w k).err = s.err := rfl
@[simp] theorem State.accept_oc (w : Word) (k : Nat) : (s.accept w k).oc = s.oc := rfl
@[simp] theorem State.accept_werr (w : Word) (k : Nat) : (s.accept w k).werr = s.werr := rfl
@[simp] theorem State.accept_ecode (w : Word) (k : Nat) : (s.accept w k).ecode = s.ecode := rfl
@[simp] theorem State.accept_cmd (w : Word) (k : Nat) : (s.accept w k).cmd = w := rfl
@[simp] theorem State.accept_engine (w : Word) (k : Nat) : (s.accept w k).engine = .busy w s.regs k := rfl
@[simp] theorem State.accept_host (w : Word) (k : Nat) : (s.accept w k).host = s.host := rfl
@[simp] theorem State.accept_draws (w : Word) (k : Nat) : (s.accept w k).draws = s.draws := rfl

/-! ### State.softReset -/

@[simp] theorem State.softReset_regs : (s.softReset).regs = s.regs := rfl
@[simp] theorem State.softReset_ie : (s.softReset).ie = s.ie := rfl
@[simp] theorem State.softReset_done : (s.softReset).done = false := rfl
@[simp] theorem State.softReset_err : (s.softReset).err = false := rfl
@[simp] theorem State.softReset_oc : (s.softReset).oc = false := rfl
@[simp] theorem State.softReset_werr : (s.softReset).werr = false := rfl
@[simp] theorem State.softReset_ecode : (s.softReset).ecode = .ok := rfl
@[simp] theorem State.softReset_cmd : (s.softReset).cmd = 0 := rfl
@[simp] theorem State.softReset_engine : (s.softReset).engine = .idle := rfl
@[simp] theorem State.softReset_host : (s.softReset).host = s.host := rfl
@[simp] theorem State.softReset_draws : (s.softReset).draws = s.draws := rfl

/-! ### State.hardReset -/

@[simp] theorem State.hardReset_regs : (s.hardReset).regs = Registers.reset := rfl
@[simp] theorem State.hardReset_ie : (s.hardReset).ie = false := rfl
@[simp] theorem State.hardReset_done : (s.hardReset).done = false := rfl
@[simp] theorem State.hardReset_err : (s.hardReset).err = false := rfl
@[simp] theorem State.hardReset_oc : (s.hardReset).oc = false := rfl
@[simp] theorem State.hardReset_werr : (s.hardReset).werr = false := rfl
@[simp] theorem State.hardReset_ecode : (s.hardReset).ecode = .ok := rfl
@[simp] theorem State.hardReset_cmd : (s.hardReset).cmd = 0 := rfl
@[simp] theorem State.hardReset_engine : (s.hardReset).engine = .idle := rfl
@[simp] theorem State.hardReset_host : (s.hardReset).host = s.host := rfl
@[simp] theorem State.hardReset_draws : (s.hardReset).draws = s.draws := rfl

/-! ### State.statusWrite -/

@[simp] theorem State.statusWrite_regs (w : Word) : (s.statusWrite w).regs = s.regs := rfl
@[simp] theorem State.statusWrite_ie (w : Word) : (s.statusWrite w).ie = s.ie := rfl
@[simp] theorem State.statusWrite_done (w : Word) : (s.statusWrite w).done = (s.done && !w.getLsbD 1) := rfl
@[simp] theorem State.statusWrite_err (w : Word) : (s.statusWrite w).err = (s.err && !w.getLsbD 2) := rfl
@[simp] theorem State.statusWrite_oc (w : Word) : (s.statusWrite w).oc = s.oc := rfl
@[simp] theorem State.statusWrite_werr (w : Word) : (s.statusWrite w).werr = (s.werr && !w.getLsbD 4) := rfl
@[simp] theorem State.statusWrite_ecode (w : Word) : (s.statusWrite w).ecode = s.ecode := rfl
@[simp] theorem State.statusWrite_cmd (w : Word) : (s.statusWrite w).cmd = s.cmd := rfl
@[simp] theorem State.statusWrite_engine (w : Word) : (s.statusWrite w).engine = s.engine := rfl
@[simp] theorem State.statusWrite_host (w : Word) : (s.statusWrite w).host = s.host := rfl
@[simp] theorem State.statusWrite_draws (w : Word) : (s.statusWrite w).draws = s.draws := rfl

/-! ### State.hostGoto -/

@[simp] theorem State.hostGoto_regs (n : Nat) : (s.hostGoto n).regs = s.regs := rfl
@[simp] theorem State.hostGoto_ie (n : Nat) : (s.hostGoto n).ie = s.ie := rfl
@[simp] theorem State.hostGoto_done (n : Nat) : (s.hostGoto n).done = s.done := rfl
@[simp] theorem State.hostGoto_err (n : Nat) : (s.hostGoto n).err = s.err := rfl
@[simp] theorem State.hostGoto_oc (n : Nat) : (s.hostGoto n).oc = s.oc := rfl
@[simp] theorem State.hostGoto_werr (n : Nat) : (s.hostGoto n).werr = s.werr := rfl
@[simp] theorem State.hostGoto_ecode (n : Nat) : (s.hostGoto n).ecode = s.ecode := rfl
@[simp] theorem State.hostGoto_cmd (n : Nat) : (s.hostGoto n).cmd = s.cmd := rfl
@[simp] theorem State.hostGoto_engine (n : Nat) : (s.hostGoto n).engine = s.engine := rfl
@[simp] theorem State.hostGoto_host (n : Nat) : (s.hostGoto n).host = { s.host with pc := n } := rfl
@[simp] theorem State.hostGoto_draws (n : Nat) : (s.hostGoto n).draws = s.draws := rfl

/-! ### Commits -/

@[simp] theorem State.applyCommit_nothing : s.applyCommit .nothing = s := rfl
@[simp] theorem State.applyCommit_value (d : Fin 16) (x : Value) :
    s.applyCommit (.value d x) = { s with regs := s.regs.setValue d x } := rfl
@[simp] theorem State.applyCommit_point (d : Fin 8) (pt : Point) :
    s.applyCommit (.point d pt) = { s with regs := s.regs.writePoint d pt } := rfl
@[simp] theorem State.applyCommit_onCurve (b : Bool) : s.applyCommit (.onCurve b) = { s with oc := b } := rfl

@[simp] theorem State.completeError_eq_failed (e : CommandError) : s.completeError e = s.failed e := rfl
@[simp] theorem State.completeOk_nothing : s.completeOk .nothing = s.finished s.regs := rfl
@[simp] theorem State.completeOk_value (d : Fin 16) (x : Value) :
    s.completeOk (.value d x) = s.finished (s.regs.setValue d x) := rfl
@[simp] theorem State.completeOk_point (d : Fin 8) (pt : Point) :
    s.completeOk (.point d pt) = s.finished (s.regs.writePoint d pt) := rfl
@[simp] theorem State.completeOk_onCurve (b : Bool) :
    s.completeOk (.onCurve b) = { s.finished s.regs with oc := b } := rfl
@[simp] theorem State.complete_ok (c : Commit) : s.complete (.ok c) = s.completeOk c := rfl
@[simp] theorem State.complete_error (e : CommandError) : s.complete (.error e) = s.failed e := rfl

/-! ### The engine -/

theorem State.busy_eq_true_iff : s.busy = true ↔ ∃ w S k, s.engine = .busy w S k := by
  unfold State.busy
  cases s.engine <;> simp

theorem State.busy_eq_false_iff : s.busy = false ↔ s.engine = .idle := by
  unfold State.busy
  cases s.engine <;> simp

variable {s}

@[simp] theorem State.operands_of_busy {w : Word} {S : Registers} {k : Nat} (h : s.engine = .busy w S k) :
    s.operands = S := by
  simp [State.operands, h]

@[simp] theorem State.operands_of_idle (h : s.engine = .idle) : s.operands = s.regs := by
  simp [State.operands, h]

end Sys2Proof.Machine
end

