-- ==== Sys2Proof/Laws/Arith.lean ====
section
/-! SUPPORT. What the arithmetic of Machine/Arith.lean keeps: remainders, the Euclidean loop's gcd and Bézout coefficient, the bit
count, and one iteration of double-and-add. -/

namespace Sys2Proof.Machine

/-! ### Remainders -/

theorem residue_cast {m : Nat} (hm : 0 < m) (x : Int) : (residue x m : Int) = x % (m : Int) := by
  have : 0 ≤ x % (m : Int) := Int.emod_nonneg x (by omega)
  simp [residue, this]

theorem residue_lt {m : Nat} (hm : 0 < m) (x : Int) : residue x m < m := by
  have h1 := residue_cast hm x
  have h2 := Int.emod_lt_of_pos x (show (0 : Int) < m by omega)
  omega

theorem residue_eq_zero_iff {m : Nat} (hm : 0 < m) (x : Int) : residue x m = 0 ↔ x % (m : Int) = 0 := by
  rw [← residue_cast hm x]
  exact Int.natCast_eq_zero.symm

/-! ### The Euclidean loop -/

/-- The next remainder is r0 mod r1. -/
theorem euclid_remainder (r0 r1 : Nat) : r0 - r0 / r1 * r1 = r0 % r1 := by
  have h := Nat.div_add_mod r0 r1
  have h2 : r1 * (r0 / r1) = r0 / r1 * r1 := Nat.mul_comm _ _
  omega

/-- The loop ends with the gcd. -/
theorem euclid_gcd (fuel : Nat) : ∀ (r0 r1 : Nat) (t0 t1 : Int), r1 ≤ fuel →
    (euclid fuel r0 r1 t0 t1).1 = Nat.gcd r0 r1 := by
  induction fuel with
  | zero =>
    intro r0 r1 t0 t1 h
    obtain rfl : r1 = 0 := by omega
    simp [euclid]
  | succ fuel ih =>
    intro r0 r1 t0 t1 h
    by_cases hr : r1 = 0
    · simp [euclid, hr]
    · have hlt := Nat.mod_lt r0 (show 0 < r1 by omega)
      rw [euclid, if_neg hr, euclid_remainder, ih _ _ _ _ (by omega), Nat.gcd_comm, ← Nat.gcd_rec, Nat.gcd_comm]

/-- The loop keeps Bézout's congruence: when t0 · k is r0 and t1 · k is r1 modulo m, the final coefficient times k is the final
remainder modulo m. -/
theorem euclid_bezout (m k : Int) (fuel : Nat) : ∀ (r0 r1 : Nat) (t0 t1 : Int),
    t0 * k ≡ r0 [ZMOD m] → t1 * k ≡ r1 [ZMOD m] →
    (euclid fuel r0 r1 t0 t1).2 * k ≡ (euclid fuel r0 r1 t0 t1).1 [ZMOD m] := by
  induction fuel with
  | zero =>
    intro r0 r1 t0 t1 h0 _
    simpa [euclid] using h0
  | succ fuel ih =>
    intro r0 r1 t0 t1 h0 h1
    by_cases hr : r1 = 0
    · simpa [euclid, hr] using h0
    · rw [euclid, if_neg hr]
      refine ih _ _ _ _ h1 ?_
      have hq : ((r0 - r0 / r1 * r1 : Nat) : Int) = (r0 : Int) - ((r0 / r1 : Nat) : Int) * r1 := by
        rw [Nat.cast_sub (Nat.div_mul_le_self r0 r1)]
        push_cast
        rfl
      have e : (t0 - ((r0 / r1 : Nat) : Int) * t1) * k = t0 * k - ((r0 / r1 : Nat) : Int) * (t1 * k) := by ring
      rw [hq, e]
      exact h0.sub (h1.mul_left _)

/-! ### Bits of a scalar -/

theorem bitlen_zero : bitlen 0 = 0 := rfl

theorem bitlen_half {k : Nat} (hk : k ≠ 0) : bitlen k = bitlen (k / 2) + 1 := by
  by_cases h : k = 1
  · subst h
    decide
  · have h2 : k / 2 ≠ 0 := by omega
    have e : Nat.log2 k = Nat.log2 (k / 2) + 1 := by
      rw [Nat.log2_def]
      simp [show 2 ≤ k by omega]
    simp [bitlen, hk, h2, e]

theorem bitlen_le_of_lt {n w : Nat} (h : n < 2 ^ w) : bitlen n ≤ w := by
  unfold bitlen
  split
  · omega
  · next hn =>
    have := (Nat.log2_lt hn).2 h
    omega

/-- With `bitlen k` iterations the loop ends because k has become 0. -/
theorem doubleAndAdd_zero (c : Curve) (fuel : Nat) (acc addend : Point) :
    doubleAndAdd c fuel 0 acc addend = .ok acc := by
  cases fuel <;> simp [doubleAndAdd]

/-- One iteration of the loop. -/
theorem doubleAndAdd_step (c : Curve) {k : Nat} (hk : k ≠ 0) (acc addend : Point) :
    doubleAndAdd c (bitlen k) k acc addend =
      (doubleAndAddStep c k acc addend).bind fun r => doubleAndAdd c (bitlen (k / 2)) (k / 2) r.1 r.2 := by
  rw [bitlen_half hk, doubleAndAdd, if_neg hk]
  rfl

end Sys2Proof.Machine
end

