-- ==== Sys2Proof/Laws/Registers.lean ====
section
/-! SUPPORT. Reading back the register writes of Machine/Ops.lean and Machine/Bus.lean: each write reaches its own target and
leaves every other register alone. -/

namespace Sys2Proof.Machine

variable (r : Registers)

/-! ### Value registers -/

@[simp] theorem Registers.setValue_inf (i : Fin 16) (x : Value) : (r.setValue i x).inf = r.inf := rfl
@[simp] theorem Registers.setValue_p (i : Fin 16) (x : Value) : (r.setValue i x).p = r.p := rfl
@[simp] theorem Registers.setValue_a (i : Fin 16) (x : Value) : (r.setValue i x).a = r.a := rfl
@[simp] theorem Registers.setValue_b (i : Fin 16) (x : Value) : (r.setValue i x).b = r.b := rfl
@[simp] theorem Registers.setValue_n (i : Fin 16) (x : Value) : (r.setValue i x).n = r.n := rfl

@[simp] theorem Registers.setValue_self (i : Fin 16) (x : Value) : (r.setValue i x).v[i.val] = x := by
  simp [Registers.setValue]

@[simp] theorem Registers.setValue_of_ne {i j : Fin 16} (x : Value) (h : j ≠ i) :
    (r.setValue i x).v[j.val] = r.v[j.val] := by
  have hij : i.val ≠ j.val := fun e => h (Fin.ext e.symm)
  simp [Registers.setValue, Vector.getElem_set_ne, hij]

theorem Registers.withValue_eq (d : Fin 16) (x : Nat) :
    r.withValue d x = r.setValue d (BitVec.ofNat Config.W x) := rfl

/-! ### Identity flags -/

@[simp] theorem Registers.setFlag_v (j : Fin 8) (b : Bool) : (r.setFlag j b).v = r.v := rfl
@[simp] theorem Registers.setFlag_p (j : Fin 8) (b : Bool) : (r.setFlag j b).p = r.p := rfl
@[simp] theorem Registers.setFlag_a (j : Fin 8) (b : Bool) : (r.setFlag j b).a = r.a := rfl
@[simp] theorem Registers.setFlag_b (j : Fin 8) (b : Bool) : (r.setFlag j b).b = r.b := rfl
@[simp] theorem Registers.setFlag_n (j : Fin 8) (b : Bool) : (r.setFlag j b).n = r.n := rfl

theorem Registers.setFlag_flag (i j : Fin 8) (b : Bool) :
    (r.setFlag j b).inf.getLsbD i = if i = j then b else r.inf.getLsbD i := by
  have key : ∀ (x : BitVec 8) (b : Bool) (i j : Fin 8),
      (if b then x ||| (1#8 <<< j.val) else x &&& ~~~(1#8 <<< j.val)).getLsbD i = if i = j then b else x.getLsbD i := by
    intro x b i j
    have hi := i.isLt
    have hj := j.isLt
    have e : i = j ↔ i.val = j.val := Fin.ext_iff
    cases b <;> simp [e, hi] <;> grind
  exact key r.inf b i j

/-! ### Pairs -/

theorem pairX_ne_pairY (i j : Fin 8) : pairX i ≠ pairY j := by
  intro h
  have := congrArg Fin.val h
  simp only [pairX, pairY] at this
  omega

/-- `WritePoint` as register writes (00_scope.md R13). -/
theorem Registers.writePoint_eq (j : Fin 8) (pt : Point) :
    r.writePoint j pt =
      match pt with
      | .identity => ((r.setFlag j true).setValue (pairX j) 0).setValue (pairY j) 0
      | .affine x y =>
        ((r.setFlag j false).setValue (pairX j) (BitVec.ofNat Config.W x)).setValue (pairY j)
          (BitVec.ofNat Config.W y) := by
  cases pt <;> rfl

@[simp] theorem Registers.writePoint_p (j : Fin 8) (pt : Point) : (r.writePoint j pt).p = r.p := by cases pt <;> rfl
@[simp] theorem Registers.writePoint_a (j : Fin 8) (pt : Point) : (r.writePoint j pt).a = r.a := by cases pt <;> rfl
@[simp] theorem Registers.writePoint_b (j : Fin 8) (pt : Point) : (r.writePoint j pt).b = r.b := by cases pt <;> rfl
@[simp] theorem Registers.writePoint_n (j : Fin 8) (pt : Point) : (r.writePoint j pt).n = r.n := by cases pt <;> rfl

/-- A point write reaches no other pair's flag. -/
theorem Registers.writePoint_flag (i j : Fin 8) (pt : Point) :
    (r.writePoint j pt).inf.getLsbD i = if i = j then decide (pt = .identity) else r.inf.getLsbD i := by
  cases pt with
  | identity => simpa [Registers.writePoint] using r.setFlag_flag i j true
  | affine x y => simpa [Registers.writePoint] using r.setFlag_flag i j false

/-- A point write reaches no value register but the pair's two. -/
theorem Registers.writePoint_of_ne {i : Fin 16} {j : Fin 8} (pt : Point) (hx : i ≠ pairX j) (hy : i ≠ pairY j) :
    (r.writePoint j pt).v[i.val] = r.v[i.val] := by
  cases pt <;> simp [Registers.writePoint, hx, hy]

/-! ### Words of a register -/

/-- Bit `b` of a register after one of its words was replaced. -/
theorem getLsbD_setWord (x : Value) (k : Fin 8) (w : Word) (b : Nat) (hb : b < Config.W) :
    (setWord x k w).getLsbD b = if 32 * k.val ≤ b ∧ b < 32 * k.val + 32 then w.getLsbD (b - 32 * k.val) else x.getLsbD b := by
  have hk := k.isLt
  have hones : ∀ n, (0xFFFFFFFF#256).getLsbD n = decide (n < 32) := by
    intro n
    have : (0xFFFFFFFF#256) = (BitVec.allOnes 32).setWidth 256 := by decide
    rw [this, BitVec.getLsbD_setWidth, BitVec.getLsbD_allOnes]
    by_cases h : n < 32 <;> simp [h]
    omega
  have hones' : ∀ n (h : n < 256), (0xFFFFFFFF#256)[n] = decide (n < 32) := by
    intro n h
    rw [← hones n, BitVec.getLsbD_eq_getElem h]
  have hb' : b < 256 := hb
  by_cases h : 32 * k.val ≤ b ∧ b < 32 * k.val + 32
  · obtain ⟨h1, h2⟩ := h
    have e1 : ¬ b < 32 * k.val := by omega
    have e2 : b - 32 * k.val < 32 := by omega
    have e3 : b - 32 * k.val < 256 := by omega
    simp [setWord, h1, h2, hb', e1, hones', e2]
  · rw [if_neg h]
    by_cases h1 : b < 32 * k.val
    · simp [setWord, h1, hb']
    · have e2 : ¬ b - 32 * k.val < 32 := by omega
      have e4 : w.getLsbD (b - 32 * k.val) = false := BitVec.getLsbD_of_ge w _ (by omega)
      have e5 := hones' (b - 32 * k.val) (by omega)
      simp [setWord, hb', h1, e4, e5, e2]

/-- The word just written reads back. -/
theorem getWord_setWord_self (x : Value) (k : Fin 8) (w : Word) : getWord (setWord x k w) k = w := by
  have hk := k.isLt
  apply BitVec.eq_of_getLsbD_eq
  intro b hb
  rw [getWord, BitVec.getLsbD_extractLsb', getLsbD_setWord _ _ _ _ (by simp only [Config.W]; omega)]
  simp [hb]

/-- Every other word keeps its value. -/
theorem getWord_setWord_of_ne (x : Value) {j k : Fin 8} (w : Word) (h : j ≠ k) :
    getWord (setWord x k w) j = getWord x j := by
  have hk := k.isLt
  have hj := j.isLt
  have hne : j.val ≠ k.val := fun e => h (Fin.ext e)
  apply BitVec.eq_of_getLsbD_eq
  intro b hb
  rw [getWord, getWord, BitVec.getLsbD_extractLsb', BitVec.getLsbD_extractLsb',
    getLsbD_setWord _ _ _ _ (by simp only [Config.W]; omega), if_neg (by omega)]

end Sys2Proof.Machine
end

