-- ==== Sys2Proof/Laws/Ops.lean ====
section
/-! SUPPORT. What the shared operations can do, said once: a command's completion, acceptance, the register window's map and its
writes. -/

namespace Sys2Proof.Machine

/-! ### Commands -/

/-- The rule each command applies to its snapshot. -/
def ruleOf : Instr → Registers → CommandResult
  | .nop => ruleNop
  | .mmul d a b ms => ruleMmul d a b ms
  | .fsqr d a ms => ruleFsqr d a ms
  | .mr2 d ms => ruleMr2 d ms
  | .minv d a ms => ruleMinv d a ms
  | .padd d a b => rulePadd d a b
  | .pdbl d a => rulePdbl d a
  | .pmul d a b => rulePmul d a b
  | .pchk a => rulePchk a

/-- Every command answers the completion of its rule's outcome. -/
theorem exec_eq_complete (i : Instr) (s : State) : exec i s = .next (s.complete (ruleOf i s.operands)) := by
  cases i <;> rfl

/-- What a completion can do. -/
theorem complete_cases (r : CommandResult) (s : State) :
    (∃ e, r = .error e ∧ s.complete r = s.failed e) ∨ (∃ c, r = .ok c ∧ s.complete r = s.completeOk c) := by
  cases r with
  | error e => exact .inl ⟨e, rfl, rfl⟩
  | ok c => exact .inr ⟨c, rfl, rfl⟩

/-- A bind in `Except` succeeds only when both parts do. -/
theorem bind_eq_ok {α β : Type} {x : Except CommandError α} {f : α → Except CommandError β} {b : β} :
    (x >>= f) = .ok b ↔ ∃ a, x = .ok a ∧ f a = .ok b := by
  cases x <;> simp [bind, Except.bind]

/-- The commits a command can make: each writes its own kind of destination and nothing else (10_state.md R22). -/
def commitsTo (i : Instr) (c : Commit) : Prop :=
  match i with
  | .nop => c = .nothing
  | .mmul d _ _ _ => ∃ x, c = .value d x
  | .fsqr d _ _ => ∃ x, c = .value d x
  | .mr2 d _ => ∃ x, c = .value d x
  | .minv d _ _ => ∃ x, c = .value d x
  | .padd d _ _ => ∃ pt, c = .point d pt
  | .pdbl d _ => ∃ pt, c = .point d pt
  | .pmul d _ _ => ∃ pt, c = .point d pt
  | .pchk _ => ∃ b, c = .onCurve b

theorem commitsTo_of_rule {i : Instr} {S : Registers} {c : Commit} (h : ruleOf i S = .ok c) : commitsTo i c := by
  cases i with
  | nop => simpa [ruleOf, ruleNop, commitsTo, eq_comm] using h
  | mmul d a b ms =>
    simp only [ruleOf, ruleMmul, bind_eq_ok, Except.ok.injEq] at h
    obtain ⟨_, _, _, _, _, _, rfl⟩ := h
    exact ⟨_, rfl⟩
  | fsqr d a ms =>
    simp only [ruleOf, ruleFsqr, bind_eq_ok, Except.ok.injEq] at h
    obtain ⟨_, _, _, _, rfl⟩ := h
    exact ⟨_, rfl⟩
  | mr2 d ms =>
    simp only [ruleOf, ruleMr2, bind_eq_ok, Except.ok.injEq] at h
    obtain ⟨_, _, rfl⟩ := h
    exact ⟨_, rfl⟩
  | minv d a ms =>
    simp only [ruleOf, ruleMinv] at h
    split at h
    · cases h
    · simp only [bind_eq_ok, Except.ok.injEq] at h
      obtain ⟨_, _, rfl⟩ := h
      exact ⟨_, rfl⟩
  | padd d a b =>
    simp only [ruleOf, rulePadd, bind_eq_ok, Except.ok.injEq] at h
    obtain ⟨_, _, _, _, _, _, _, _, rfl⟩ := h
    exact ⟨_, rfl⟩
  | pdbl d a =>
    simp only [ruleOf, rulePdbl, bind_eq_ok, Except.ok.injEq] at h
    obtain ⟨_, _, _, _, _, _, rfl⟩ := h
    exact ⟨_, rfl⟩
  | pmul d a b =>
    simp only [ruleOf, rulePmul, bind_eq_ok] at h
    obtain ⟨_, _, h⟩ := h
    split at h
    · cases h
    · simp only [bind_eq_ok, Except.ok.injEq] at h
      obtain ⟨_, _, _, _, rfl⟩ := h
      exact ⟨_, rfl⟩
  | pchk a =>
    simp only [ruleOf, rulePchk, bind_eq_ok, Except.ok.injEq] at h
    obtain ⟨_, _, _, _, rfl⟩ := h
    exact ⟨_, rfl⟩

/-- What a command can do, in full: fail with a code and nothing else, or complete with the commit of its kind. -/
theorem exec_cases (i : Instr) (s : State) :
    (∃ e, ruleOf i s.operands = .error e ∧ exec i s = .next (s.failed e)) ∨
    (∃ c, ruleOf i s.operands = .ok c ∧ commitsTo i c ∧ exec i s = .next (s.completeOk c)) := by
  rw [exec_eq_complete]
  rcases complete_cases (ruleOf i s.operands) s with ⟨e, hr, hc⟩ | ⟨c, hr, hc⟩
  · exact .inl ⟨e, hr, by rw [hc]⟩
  · exact .inr ⟨c, hr, commitsTo_of_rule hr, by rw [hc]⟩

/-! ### The checks -/

theorem checkOddModulus_eq_ok {m : Nat} : checkOddModulus m = .ok () ↔ ¬(m % 2 = 0 ∨ m < 3) := by
  unfold checkOddModulus
  split <;> simp_all

theorem checkOddModulus_eq_error {m : Nat} (h : m % 2 = 0 ∨ m < 3) : checkOddModulus m = .error .badModulus := by
  simp [checkOddModulus, h]

theorem checkReduced_eq_ok {x m : Nat} : checkReduced x m = .ok () ↔ x < m := by
  unfold checkReduced
  split <;> simp_all

theorem checkReduced_eq_error {x m : Nat} (h : x ≥ m) : checkReduced x m = .error .operandRange := by
  simp [checkReduced, h]

/-- A pair loads as the point it denotes when that point is reduced. -/
theorem loadPoint_eq_ok {r : Registers} {j : Fin 8} (h : (r.point j).reduced r.curve) :
    r.loadPoint j = .ok (r.point j) := by
  unfold Registers.loadPoint Registers.point at *
  cases hf : r.flag j with
  | true => simp
  | false =>
    simp only [hf, Bool.false_eq_true, if_false, Point.reduced, Registers.curve] at h
    simp only [Bool.false_eq_true, if_false]
    rw [if_neg (by omega)]

/-- A pair whose point is not reduced does not load. -/
theorem loadPoint_eq_error {r : Registers} {j : Fin 8} (h : ¬(r.point j).reduced r.curve) :
    r.loadPoint j = .error .operandRange := by
  unfold Registers.loadPoint Registers.point at *
  cases hf : r.flag j with
  | true => simp [hf, Point.reduced] at h
  | false =>
    simp only [hf, Bool.false_eq_true, if_false, Point.reduced, Registers.curve] at h
    simp only [Bool.false_eq_true, if_false]
    rw [if_pos (by omega)]

end Sys2Proof.Machine
end

