-- ==== Sys2Proof/Laws/Bus.lean ====
section
/-! SUPPORT. The address map at each named offset, and what a bus write can do, BUSY or IDLE. -/

namespace Sys2Proof.Machine

/-! ### The address map (20_memory.md R61-R64) -/

theorem target_value (i : Fin 16) (k : Fin 8) :
    target (BitVec.ofNat 12 (0x400 + 0x80 * i.val + 4 * k.val)) = .value i k := by
  revert i k
  decide +kernel

theorem target_config (k : Fin 8) :
    target (BitVec.ofNat 12 (0xC00 + 4 * k.val)) = .config .p k ∧
    target (BitVec.ofNat 12 (0xC80 + 4 * k.val)) = .config .a k ∧
    target (BitVec.ofNat 12 (0xD00 + 4 * k.val)) = .config .b k ∧
    target (BitVec.ofNat 12 (0xD80 + 4 * k.val)) = .config .n k := by
  revert k
  decide +kernel

theorem target_unused_slot_word {slot k : Nat} (hs : slot < 20) (h8 : 8 ≤ k) (hk : k < 32) :
    target (BitVec.ofNat 12 (0x400 + 0x80 * slot + 4 * k)) = .unused := by
  have key : ∀ (s : Fin 20) (k : Fin 32), 8 ≤ k.val →
      target (BitVec.ofNat 12 (0x400 + 0x80 * s.val + 4 * k.val)) = .unused := by decide +kernel
  exact key ⟨slot, hs⟩ ⟨k, hk⟩ h8

theorem target_reserved {o : Nat} (h : (0x014 ≤ o ∧ o < 0x400) ∨ (0xE00 ≤ o ∧ o < 0x1000)) :
    target (BitVec.ofNat 12 o) = .unused := by
  have ho : o % 4096 = o := Nat.mod_eq_of_lt (by omega)
  have e1 : ¬(0x400 ≤ o ∧ o < 0xC00) := by omega
  have e2 : ¬(0xC00 ≤ o ∧ o < 0xE00) := by omega
  simp only [target, BitVec.toNat_ofNat, show (2 : Nat) ^ 12 = 4096 from rfl, ho, e1, e2, if_false]
  split <;> first | omega | rfl

@[simp] theorem target_id : target 0x000#12 = .id := by decide
@[simp] theorem target_ctrl : target 0x004#12 = .ctrl := by decide
@[simp] theorem target_status : target 0x008#12 = .status := by decide
@[simp] theorem target_cmd : target 0x00C#12 = .cmd := by decide
@[simp] theorem target_ptinf : target 0x010#12 = .ptinf := by decide

/-- CTRL stands at one offset only. -/
theorem eq_of_target_ctrl {off : Offset} (h : target off = .ctrl) : off = 0x004 := by
  apply BitVec.eq_of_toNat_eq
  unfold target at h
  simp only at h
  split at h
  · split at h <;> cases h
  · split at h
    · split at h <;> cases h
    · split at h <;> first | (cases h; done) | simpa using ‹BitVec.toNat off = _›

/-! ### Bus writes -/

theorem guardedWrite_of_busy {s : State} (h : s.busy = true) (f : State → State) :
    s.guardedWrite f = { s with werr := true } := by
  simp [State.guardedWrite, h]

theorem guardedWrite_of_idle {s : State} (h : s.busy = false) (f : State → State) : s.guardedWrite f = f s := by
  simp [State.guardedWrite, h]

/-- While BUSY a bus write is a CTRL write, a STATUS write, nothing at all, or dropped with WERR (20_memory.md R71). -/
theorem busWrite_busy_cases {s : State} (h : s.busy = true) (off : Offset) (w : Word) :
    (off = 0x004 ∧ s.busWrite off w = s.ctrlWrite w) ∨ s.busWrite off w = s.statusWrite w ∨ s.busWrite off w = s ∨
      s.busWrite off w = { s with werr := true } := by
  unfold State.busWrite
  split
  · next ht => exact .inl ⟨eq_of_target_ctrl ht, rfl⟩
  all_goals simp [guardedWrite_of_busy h]

/-- What a CMD write while IDLE does (10_state.md R40). -/
theorem commandWrite_cases (s : State) (w : Word) :
    (∃ e, decode w = .error e ∧ s.commandWrite w = { s.failed .illegalCommand with cmd := w }) ∨
    (∃ i, decode w = .ok i ∧
      s.commandWrite w = { s.accept w (Config.latency s.draws) with draws := s.draws + 1 }) := by
  unfold State.commandWrite
  split
  · next e he => exact .inl ⟨e, he, rfl⟩
  · next i hi => exact .inr ⟨i, hi, rfl⟩

/-- A bus write never touches the host agent. -/
@[simp] theorem busWrite_host (s : State) (off : Offset) (w : Word) : (s.busWrite off w).host = s.host := by
  unfold State.busWrite
  split
  · unfold State.ctrlWrite
    split <;> rfl
  · rfl
  · rfl
  · rfl
  · unfold State.guardedWrite
    split
    · rfl
    · rcases commandWrite_cases s w with ⟨_, _, h⟩ | ⟨_, _, h⟩ <;> simp [h]
  all_goals
    unfold State.guardedWrite
    split <;> rfl

end Sys2Proof.Machine
end

