-- ==== Sys2Proof/Laws/Decode.lean ====
section
/-! SUPPORT. The fields of an encoded word, and each operand's way through its field. -/

namespace Sys2Proof

/-- The format read back: each field of 30_encoding.md R81 where the encoder put it. -/
theorem fields_commandWord (op : BitVec 8) (d a b : BitVec 4) (ms : BitVec 1) :
    fields (commandWord op d a b ms) = { op := op, d := d, a := a, b := b, ms := ms, rsv := 0 } := by
  unfold fields commandWord
  congr 1 <;>
  · apply BitVec.eq_of_getLsbD_eq
    intro i hi
    simp only [BitVec.getLsbD_extractLsb', BitVec.getLsbD_append, hi, decide_true, Bool.true_and]
    grind

@[simp] theorem valueOperand_valueField (r : Fin 16) : valueOperand (valueField r) = r := rfl

@[simp] theorem pairOperand_pairField (q : Fin 8) : pairOperand (pairField q) = .ok q := by
  revert q
  decide

@[simp] theorem modSelOperand_modSelField (ms : ModSel) : modSelOperand (modSelField ms) = ms := by
  cases ms <;> decide

@[simp] theorem pairField_lt (q : Fin 8) : pairField q < 8#4 := by
  revert q
  decide

@[simp] theorem unused_zero {k : Nat} : unused (0#k) = .ok () := by simp [unused]

@[simp] theorem noModSel_zero : noModSel 0#1 = .ok () := rfl

/-- The decoder on an encoded word. -/
theorem decode_commandWord (op : BitVec 8) (d a b : BitVec 4) (ms : BitVec 1) :
    decode (commandWord op d a b ms) = decodeFields { op := op, d := d, a := a, b := b, ms := ms, rsv := 0 } := by
  simp [decode, fields_commandWord]

/-- The predicate `legal` in terms of the fields the decoder reads. -/
theorem legal_commandWord (op : BitVec 8) (d a b : BitVec 4) (ms : BitVec 1) :
    legal (commandWord op d a b ms) =
      match op.toNat with
      | 0x00 => d == 0 && a == 0 && b == 0 && ms == 0
      | 0x01 => true
      | 0x02 => b == 0
      | 0x04 => b == 0
      | 0x03 => a == 0 && b == 0
      | 0x10 => ms == 0 && decide (d < 8) && decide (a < 8) && decide (b < 8)
      | 0x11 => ms == 0 && decide (d < 8) && decide (a < 8) && b == 0
      | 0x12 => ms == 0 && decide (d < 8) && decide (a < 8)
      | 0x13 => ms == 0 && d == 0 && decide (a < 8) && b == 0
      | _ => false := by
  have h := fields_commandWord op d a b ms
  simp only [fields, Fields.mk.injEq] at h
  obtain ⟨h1, h2, h3, h4, h5, h6⟩ := h
  simp only [legal, h1, h2, h3, h4, h5, h6]
  rfl

end Sys2Proof
end

