-- ==== Sys2Proof/Laws/PerInstr.lean ====
section
/-! SUPPORT. The family LegalWord: for each instruction as syntax, its word is well formed (30_encoding.md R86). -/

namespace Sys2Proof.Laws.LegalWord

/-- The instruction's word is legal, whatever its operands. -/
def Statement (i : Instr) : Prop := legal (encode i) = true

theorem nop : Statement .nop := by
  simp [Statement, encode, legal_commandWord]

theorem mmul (d a b : Fin 16) (ms : ModSel) : Statement (.mmul d a b ms) := by
  simp [Statement, encode, legal_commandWord]

theorem fsqr (d a : Fin 16) (ms : ModSel) : Statement (.fsqr d a ms) := by
  simp [Statement, encode, legal_commandWord]

theorem mr2 (d : Fin 16) (ms : ModSel) : Statement (.mr2 d ms) := by
  simp [Statement, encode, legal_commandWord]

theorem minv (d a : Fin 16) (ms : ModSel) : Statement (.minv d a ms) := by
  simp [Statement, encode, legal_commandWord]

theorem padd (d a b : Fin 8) : Statement (.padd d a b) := by
  simp [Statement, encode, legal_commandWord]

theorem pdbl (d a : Fin 8) : Statement (.pdbl d a) := by
  simp [Statement, encode, legal_commandWord]

theorem pmul (d a : Fin 8) (b : Fin 16) : Statement (.pmul d a b) := by
  simp [Statement, encode, legal_commandWord]

theorem pchk (a : Fin 8) : Statement (.pchk a) := by
  simp [Statement, encode, legal_commandWord]

end Sys2Proof.Laws.LegalWord
end

