-- ==== Sys2Proof/Laws/Step.lean ====
section
/-! SUPPORT. What one step can do, said once: the inversion of the host's operations and of the machine's step. -/

namespace Sys2Proof.Machine

/-- What one host operation can do, the host's position aside: read, be refused, write, branch, or reset (20_memory.md R65-R68). -/
theorem hostOp_cases (op : HostOp) (s : State) :
    (∃ host, s.hostOp op = { s with host := host }) ∨
    (∃ off data host, op = .wr off .word data ∧
      s.hostOp op = { s.busWrite off (data.eval s.host.last) with host := host }) ∨
    (op = .hardReset ∧ s.hostOp op = s.hardReset) := by
  cases op with
  | rd off width =>
    refine .inl ?_
    simp only [State.hostOp, State.hostRead]
    split <;> exact ⟨_, rfl⟩
  | wr off width data =>
    simp only [State.hostOp, State.hostWrite]
    by_cases h : served off width = true
    · have hw : width = .word := by
        unfold served at h
        cases width <;> simp_all
      subst hw
      exact .inr (.inl ⟨off, data, _, rfl, by rw [if_pos h]⟩)
    · exact .inl ⟨_, by rw [if_neg h]⟩
  | bnz mask target =>
    refine .inl ?_
    simp only [State.hostOp]
    split
    · exact ⟨_, rfl⟩
    · exact ⟨s.host, rfl⟩
  | bz mask target =>
    refine .inl ?_
    simp only [State.hostOp]
    split
    · exact ⟨_, rfl⟩
    · exact ⟨s.host, rfl⟩
  | hardReset => exact .inr (.inr ⟨rfl, rfl⟩)

/-- What one step can do: the host's turn of an IDLE machine, the host's turn while a command is in flight, the completion of the
command in flight, or the end of an engine that holds an illegal word (which no acceptance leaves, log 10). -/
theorem step_cases (s : State) :
    (s.engine = .idle ∧ step s = .next s.hostStep) ∨
    (∃ w S k, s.engine = .busy w S (k + 1) ∧ s.nextHostOp ≠ none ∧
      step s = .next (State.hostStep { s with engine := .busy w S k })) ∨
    (∃ w S k i, s.engine = .busy w S k ∧ (k = 0 ∨ s.nextHostOp = none) ∧ decode w = .ok i ∧ step s = exec i s) ∨
    (∃ w S k e, s.engine = .busy w S k ∧ (k = 0 ∨ s.nextHostOp = none) ∧ decode w = .error e ∧
      step s = .next (s.failed .illegalCommand)) := by
  unfold step
  cases he : s.engine with
  | idle => exact .inl ⟨rfl, rfl⟩
  | busy w S k =>
    refine .inr ?_
    by_cases hk : k = 0 ∨ s.nextHostOp = none
    · refine .inr ?_
      cases hd : decode w with
      | ok i => exact .inl ⟨w, S, k, i, rfl, hk, hd, by simp [hk, hd]⟩
      | error e => exact .inr ⟨w, S, k, e, rfl, hk, hd, by simp [hk, hd]⟩
    · obtain ⟨hk0, hop⟩ := not_or.mp hk
      obtain ⟨j, rfl⟩ := Nat.exists_eq_succ_of_ne_zero hk0
      exact .inl ⟨w, S, j, rfl, hop, by simp [hop]⟩

/-- The host's turn performs its next operation from a state whose position is past it, or does nothing. -/
theorem hostStep_cases (s : State) :
    (s.nextHostOp = none ∧ s.hostStep = s) ∨
    (∃ op, s.nextHostOp = some op ∧ s.hostStep = (s.hostGoto (s.host.pc + 1)).hostOp op) := by
  unfold State.hostStep
  cases h : s.nextHostOp with
  | none => exact .inl ⟨rfl, rfl⟩
  | some op => exact .inr ⟨op, rfl, rfl⟩

/-- A run of n + 1 steps is a step and a run of n. -/
theorem leadsTo_succ {n : Nat} {s t : State} : leadsTo (n + 1) s t ↔ ∃ u, step s = .next u ∧ leadsTo n u t := by
  unfold leadsTo
  simp only [Host.Core.run, core]
  constructor
  · intro h
    cases hs : step s with
    | next u => exact ⟨u, rfl, by simpa [hs] using h⟩
    | fault r => cases r
    | refused r => simp [hs] at h
  · rintro ⟨u, hs, h⟩
    simpa [hs] using h

theorem leadsTo_zero {s t : State} : leadsTo 0 s t ↔ s = t := by
  constructor
  · intro h
    injection h
  · rintro rfl
    rfl

/-- Runs compose. -/
theorem leadsTo_add {m n : Nat} {s t u : State} (h1 : leadsTo m s t) (h2 : leadsTo n t u) : leadsTo (m + n) s u := by
  induction m generalizing s with
  | zero =>
    obtain rfl := leadsTo_zero.mp h1
    simpa using h2
  | succ m ih =>
    obtain ⟨v, hs, hv⟩ := leadsTo_succ.mp h1
    rw [show m + 1 + n = (m + n) + 1 by omega]
    exact leadsTo_succ.mpr ⟨v, hs, ih hv⟩

end Sys2Proof.Machine
end

