-- ==== Sys2Proof/Tests/Slice0.lean ====
section
/-! SUPPORT. The model's own tests. Expected results are those of spec/95_test_vectors.md (the vector is named beside each) or of
the tables and pseudocode of the rule named. The second half holds, for every statement of
Certificates/Slice0/Obligations.lean with hypotheses, one witness theorem `witness_<Name>`: concrete states and operands, for
each clause, that meet all its hypotheses together. -/

namespace Sys2Proof.Machine

/-! ### Decoding: words written out bit by bit, RSV · MS · B · A · D · OP (30_encoding.md R81, R84, R92) -/

theorem test_decode_nop : decode (0b00000000000#11 ++ 0b0#1 ++ 0b0000#4 ++ 0b0000#4 ++ 0b0000#4 ++ 0b00000000#8) = .ok .nop := by
  decide
theorem test_decode_mmul :
    decode (0b00000000000#11 ++ 0b1#1 ++ 0b0010#4 ++ 0b0001#4 ++ 0b0011#4 ++ 0b00000001#8) = .ok (.mmul 3 1 2 .n) := by decide
theorem test_decode_fsqr :
    decode (0b00000000000#11 ++ 0b0#1 ++ 0b0000#4 ++ 0b1110#4 ++ 0b1001#4 ++ 0b00000010#8) = .ok (.fsqr 9 14 .p) := by decide
theorem test_decode_mr2 :
    decode (0b00000000000#11 ++ 0b1#1 ++ 0b0000#4 ++ 0b0000#4 ++ 0b0111#4 ++ 0b00000011#8) = .ok (.mr2 7 .n) := by decide
theorem test_decode_minv :
    decode (0b00000000000#11 ++ 0b0#1 ++ 0b0000#4 ++ 0b0100#4 ++ 0b0101#4 ++ 0b00000100#8) = .ok (.minv 5 4 .p) := by decide
theorem test_decode_padd :
    decode (0b00000000000#11 ++ 0b0#1 ++ 0b0001#4 ++ 0b0000#4 ++ 0b0010#4 ++ 0b00010000#8) = .ok (.padd 2 0 1) := by decide
theorem test_decode_pdbl :
    decode (0b00000000000#11 ++ 0b0#1 ++ 0b0000#4 ++ 0b0111#4 ++ 0b0001#4 ++ 0b00010001#8) = .ok (.pdbl 1 7) := by decide
theorem test_decode_pmul :
    decode (0b00000000000#11 ++ 0b0#1 ++ 0b1111#4 ++ 0b0110#4 ++ 0b0001#4 ++ 0b00010010#8) = .ok (.pmul 1 6 15) := by decide
theorem test_decode_pchk :
    decode (0b00000000000#11 ++ 0b0#1 ++ 0b0000#4 ++ 0b0011#4 ++ 0b0000#4 ++ 0b00010011#8) = .ok (.pchk 3) := by decide

/-- Byte lane 0 carries bits 7:0 (20_memory.md R67): `pmul q1, q0, v4` is 0x00040112 (30_encoding.md R92). -/
theorem test_decode_bytes : decodeBytes [0x12, 0x01, 0x04, 0x00, 0xAA] = .ok (.pmul 1 0 4, [0xAA]) := by decide
theorem test_decode_truncated : decodeBytes [0x12, 0x01, 0x04] = .error .truncated := by decide

/-! ### Well-formedness: an ill-formed word for each clause of `legal` (section 3.1 of the vectors), refused by name -/

theorem test_legal_vectors :
    ([0x00000000, 0x00000001, 0x001FFF01, 0x00100002, 0x00100F03, 0x00100504, 0x00077710, 0x00080012, 0x000F7712, 0x00007013]
      : List Word).all legal = true := by decide
theorem test_ill_formed_unused_fields :
    ([0x00000100, 0x00001000, 0x00010000, 0x00100000, 0x00010002, 0x00010004, 0x00001003, 0x00010003, 0x00010011, 0x00000113,
      0x00010013] : List Word).all (fun w => !legal w) = true := by decide
theorem test_ill_formed_modulus_select :
    ([0x00100010, 0x00100011, 0x00100012, 0x00100013] : List Word).all (fun w => !legal w) = true := by decide
theorem test_ill_formed_pair :
    ([0x00080010, 0x00000810, 0x00008010, 0x00000811, 0x00008011, 0x00000812, 0x00008012, 0x00008013] : List Word).all
      (fun w => !legal w) = true := by decide
theorem test_ill_formed_reserved :
    ([0x00200001, 0x80000000, 0x01FFFF01, 0x00000005, 0x00000014, 0x000000FF] : List Word).all (fun w => !legal w) = true := by
  decide
theorem test_refusals_by_name :
    decode 0x00200001 = .error .reservedBits ∧ decode 0x00000005 = .error .reservedOpcode ∧
    decode 0x00010002 = .error .unusedField ∧ decode 0x00100010 = .error .modulusOnPoint ∧
    decode 0x00000810 = .error .pairRange := by decide

/-- Ill-formed source lines (30_encoding.md R91): vT must differ from the sources. -/
theorem test_ill_formed_lines :
    assembleProgram [.tomont .p 1 2 2] = none ∧ assembleProgram [.frommont .n 1 2 2] = none ∧
    assembleProgram [.modmul .p 1 2 3 2] = none ∧ assembleProgram [.modmul .p 1 2 3 3] = none ∧
    assembleProgram [.bz 1 ['x']] = none := by decide

/-! ### Instructions: one completion step each -/

/-- A register file: P, A, B, N, the identity flags, and the value registers from V[0] on (the rest 0). -/
def regsOf (p a b n : Nat) (inf : BitVec 8) (vs : List Nat) : Registers :=
  { v := Vector.ofFn fun i => BitVec.ofNat 256 (vs.getD i.val 0)
    inf := inf, p := BitVec.ofNat 256 p, a := BitVec.ofNat 256 a, b := BitVec.ofNat 256 b, n := BitVec.ofNat 256 n }

/-- A BUSY state whose command is to complete next: word 0, snapshot and registers `S`. -/
def busyWith (S : Registers) : State := { State.reset with regs := S, engine := .busy 0 S 0 }

/-- The state a command leaves from `busyWith S`. -/
def after (i : Instr) (S : Registers) : State :=
  match exec i (busyWith S) with
  | .next t => t
  | .fault _ => State.reset
  | .refused _ => State.reset

/-- The STATUS word after a command. -/
def statusAfter (i : Instr) (S : Registers) : Word := (after i S).statusWord

/-- V[r] after a command. -/
def valueAfter (i : Instr) (S : Registers) (r : Fin 16) : Nat := ((after i S).regs.value r).toNat

/-- The point in pair j after a command. -/
def pointAfter (i : Instr) (S : Registers) (j : Fin 8) : Point := (after i S).regs.point j

/-- The curve E17 with pairs Q0 .. of the given coordinates. -/
def e17 (inf : BitVec 8) (vs : List Nat) : Registers := regsOf 17 2 2 19 inf vs

/-- V-B4. -/
theorem test_nop : statusAfter .nop Registers.reset = 2 ∧ (after .nop Registers.reset).regs = Registers.reset := by decide

/-- V-M1, V-M28 (with P = 19, N = 97), V-M29. -/
theorem test_mmul :
    valueAfter (.mmul 3 1 2 .p) (regsOf 19 0 0 97 0 [0, 3, 5]) 3 = 14 ∧
    valueAfter (.mmul 3 1 2 .n) (regsOf 19 0 0 97 0 [0, 2, 3]) 3 = 0x10 ∧
    valueAfter (.mmul 3 3 3 .p) (regsOf 19 0 0 97 0 [0, 0, 0, 5]) 3 = 17 := by decide
/-- V-M24, V-M25, V-M26: ERR, DONE and the code. -/
theorem test_mmul_errors :
    statusAfter (.mmul 3 1 2 .p) (regsOf 19 0 0 0 0 [0, 19, 5]) = 0x306 ∧
    statusAfter (.mmul 3 1 2 .p) (regsOf 19 0 0 0 0 [0, 3, 19]) = 0x306 ∧
    statusAfter (.mmul 3 1 2 .p) (regsOf 20 0 0 0 0 [0, 19, 19]) = 0x206 := by decide

/-- V-F1, V-F2, V-F4. -/
theorem test_fsqr :
    valueAfter (.fsqr 4 1 .p) (regsOf 19 0 0 97 0 [0, 5]) 4 = 17 ∧
    valueAfter (.fsqr 4 1 .p) (regsOf 19 0 0 97 0 [0, 18]) 4 = 6 ∧
    valueAfter (.fsqr 4 1 .n) (regsOf 19 0 0 97 0 [0, 50]) 4 = 6 := by decide
/-- V-F6, for the secp256k1 prime and Gx. -/
theorem test_fsqr_256 :
    valueAfter (.fsqr 4 1 .p)
      (regsOf 0xFFFFFFFFFFFFFFFFFFFFFFFFFFFFFFFFFFFFFFFFFFFFFFFFFFFFFFFEFFFFFC2F 0 0 0 0
        [0, 0x79BE667EF9DCBBAC55A06295CE870B07029BFCDB2DCE28D959F2815B16F81798]) 4
      = 0x1F91EF74095E0DFA79099A207E0477CE20A7F0F34276913429EC8DA7197A770D := by decide

/-- V-R1, V-R2 (by N), V-R4. -/
theorem test_mr2 :
    valueAfter (.mr2 7 .p) (regsOf 19 0 0 97 0 []) 7 = 9 ∧ valueAfter (.mr2 7 .n) (regsOf 19 0 0 97 0 []) 7 = 0x23 ∧
    valueAfter (.mr2 15 .p) (regsOf (2 ^ 256 - 1) 0 0 97 0 []) 15 = 1 := by decide +kernel
/-- V-M23: V7 keeps its value. -/
theorem test_mr2_even :
    statusAfter (.mr2 7 .p) (regsOf 2 0 0 97 0 []) = 0x206 ∧ valueAfter (.mr2 7 .p) (regsOf 2 0 0 97 0 [0, 0, 0, 0, 0, 0, 0, 5]) 7 = 5 := by
  decide

/-- V-I1, V-I6, V-I10, V-I12. -/
theorem test_minv :
    valueAfter (.minv 5 4 .p) (regsOf 17 0 0 0 0 [0, 0, 0, 0, 3]) 5 = 6 ∧
    valueAfter (.minv 5 4 .p) (regsOf 17 0 0 0 0 [0, 0, 0, 0, 20]) 5 = 6 ∧
    valueAfter (.minv 5 4 .p) (regsOf 2 0 0 0 0 [0, 0, 0, 0, 1]) 5 = 1 ∧
    valueAfter (.minv 5 4 .n) (regsOf 0 0 0 256 0 [0, 0, 0, 0, 7]) 5 = 183 := by decide
/-- V-I5, V-I7, V-I13. -/
theorem test_minv_errors :
    statusAfter (.minv 5 4 .p) (regsOf 17 0 0 0 0 [0, 0, 0, 0, 17]) = 0x506 ∧
    statusAfter (.minv 5 4 .p) (regsOf 9 0 0 0 0 [0, 0, 0, 0, 6]) = 0x606 ∧
    statusAfter (.minv 5 4 .p) (regsOf 1 0 0 0 0 [0, 0, 0, 0, 5]) = 0x206 := by decide

/-- V-C3, V-C4, V-C5, V-C20. -/
theorem test_padd :
    pointAfter (.padd 2 0 1) (e17 0 [5, 1, 6, 3]) 2 = .affine 10 6 ∧
    pointAfter (.padd 2 0 1) (e17 2 [5, 1, 7, 7]) 2 = .affine 5 1 ∧
    pointAfter (.padd 2 0 1) (e17 0 [5, 1, 5, 16, 3, 3]) 2 = .identity ∧
    valueAfter (.padd 2 0 1) (e17 0 [5, 1, 5, 16, 3, 3]) 4 = 0 ∧
    pointAfter (.padd 0 0 0) (e17 0 [5, 1]) 0 = .affine 6 3 := by decide
/-- V-C9, V-C10, V-C13, V-C14. -/
theorem test_padd_errors :
    statusAfter (.padd 2 0 1) (e17 0 [5, 1, 5, 2]) = 0x406 ∧ statusAfter (.padd 2 0 1) (e17 1 [0, 0, 5, 2]) = 0x406 ∧
    statusAfter (.padd 2 0 1) (regsOf 15 1 1 0 0 [0, 1, 3, 1]) = 0x606 ∧
    statusAfter (.padd 2 0 1) (e17 0 [17, 1, 5, 1]) = 0x306 := by decide

/-- V-C7. -/
theorem test_pdbl : pointAfter (.pdbl 1 0) (e17 2 [5, 1, 9, 9]) 1 = .affine 6 3 := by decide
/-- V-C11. -/
theorem test_pdbl_order_two : statusAfter (.pdbl 1 0) (regsOf 17 16 0 0 0 [0, 0]) = 0x506 := by decide

/-- V-S1, V-S4, V-S5, V-S15. -/
theorem test_pmul :
    pointAfter (.pmul 1 0 8) (e17 0 [5, 1, 0, 0, 0, 0, 0, 0, 1]) 1 = .affine 5 1 ∧
    pointAfter (.pmul 1 0 8) (e17 0 [5, 1, 0, 0, 0, 0, 0, 0, 18]) 1 = .affine 5 16 ∧
    pointAfter (.pmul 1 0 8) (e17 0 [5, 1, 0, 0, 0, 0, 0, 0, 20]) 1 = .affine 5 1 ∧
    pointAfter (.pmul 1 0 8) (regsOf 17 2 2 5 0 [5, 1, 0, 0, 0, 0, 0, 0, 5]) 1 = .identity := by decide
/-- V-S9 (no error), V-S12, V-S13, V-S16. -/
theorem test_pmul_outcomes :
    statusAfter (.pmul 1 0 8) (e17 0 [1, 1, 0, 0, 0, 0, 0, 0, 19]) = 2 ∧
    statusAfter (.pmul 1 0 8) (e17 0 [1, 1, 0, 0, 0, 0, 0, 0, 1]) = 0x406 ∧
    statusAfter (.pmul 1 0 8) (regsOf 17 2 2 0 0 [5, 1, 0, 0, 0, 0, 0, 0, 5]) = 0x206 ∧
    statusAfter (.pmul 1 0 8) (regsOf 17 16 0 8 0 [0, 0, 0, 0, 0, 0, 0, 0, 1]) = 0x506 := by decide

/-- V-C1, V-C2, V-C15: STATUS with and without OC. -/
theorem test_pchk :
    statusAfter (.pchk 0) (e17 0 [5, 1]) = 0x00A ∧ statusAfter (.pchk 0) (e17 0 [5, 2]) = 0x002 ∧
    statusAfter (.pchk 0) (e17 1 [0xFFFF, 0xFFFF]) = 0x00A := by decide
/-- V-C16, V-C18. -/
theorem test_pchk_errors :
    statusAfter (.pchk 0) (e17 0 [5, 17]) = 0x306 ∧ statusAfter (.pchk 0) Registers.reset = 0x206 := by decide

/-! ### The bus and the host -/

/-- The host's state with this one operation to do. -/
def doing (s : State) (op : HostOp) : State := { s with host := { s.host with program := [op], pc := 0 } }

/-- V-B10: bits 31:8 are ignored. -/
theorem test_ptinf : (State.reset.busWrite 0x010 0xFFFFFF05).busRead 0x010 = 5 := by decide
/-- V-B13: word 0 of V5 replaced, word 1 kept. -/
theorem test_value_word :
    (((State.reset.busWrite 0x680 0x55).busWrite 0x684 1).busWrite 0x680 0xAABBCCDD).regs.value 5 = 0x1AABBCCDD := by decide
/-- V-B6: while BUSY both writes are dropped and STATUS is BUSY with WERR; after completion DONE with WERR. -/
theorem test_busy_writes :
    let s := busyWith (regsOf 19 0 0 0 0 [0, 3, 5])
    let t := (s.busWrite 0x500 7).busWrite 0x00C 0
    t.statusWord = 0x11 ∧ t.regs.value 2 = 5 ∧ t.cmd = s.cmd ∧ (t.completeOk .nothing).statusWord = 0x12 ∧
    ((t.completeOk .nothing).busWrite 0x008 0x12).statusWord = 0 := by decide
/-- V-B7: the soft reset aborts and sets IE. -/
theorem test_soft_reset :
    let t := (busyWith (regsOf 19 0 0 0 0 [0, 3, 5, 0x55])).busWrite 0x004 3
    t.statusWord = 0 ∧ t.cmd = 0 ∧ t.ie = true ∧ t.engine = .idle ∧ t.regs.value 3 = 0x55 ∧ t.irq = false := by decide
/-- V-B3: an access at 0x402, and a byte access, get the error response. -/
theorem test_refused_access :
    ((doing State.reset (.rd 0x402 .word)).hostStep.host.response = .error) ∧
    ((doing State.reset (.wr 0x400 .byte (.lit 7))).hostStep.regs = Registers.reset) := by decide

/-- The text of 30_encoding.md R92's examples, case-insensitive. -/
theorem test_command_text :
    parseCommand "MMUL.N v3, v1, V2".toList = some (.mmul 3 1 2 .n) ∧ parseCommand "pmul q1, q0, v4".toList = some (.pmul 1 0 4) ∧
    parseCommand "padd q8, q0, q0".toList = none := by decide

/-! ### Witnesses: the hypotheses of every statement can be met -/

/-- The curves of section 2.2 of the vectors. -/
def curveE17 : Curve := ⟨17, 2, 2⟩
def curveE17b : Curve := ⟨17, 16, 0⟩
def curveE15 : Curve := ⟨15, 1, 1⟩

theorem witness_EncodeOfDecodeIsTheWord : decode 0x00121301 = .ok (.mmul 3 1 2 .n) ∧ decode 0x00000000 = .ok .nop := by decide

theorem witness_EachRowMatchesItsOwnCommand :
    (⟨.MMUL, 0x00000001, 0xFFE000FF⟩ : TableRow) ∈ opcodeTable ∧ (0x001FFF01 : Word) &&& 0xFFE000FF = 0x00000001 := by decide

/-- Contract clauses at k = m = 2, (k, m) = (−6, 9), and k = 1, −1 with m = 2, 9. -/
theorem witness_InverseModMeetsItsContract :
    (2 : Int) % (2 : Nat) = 0 ∧ ((-6 : Int) % (9 : Nat) ≠ 0 ∧ Int.gcd (-6) (9 : Nat) ≠ 1) ∧
    Int.gcd 1 (2 : Nat) = 1 ∧ Int.gcd (-1) (9 : Nat) = 1 := by decide

/-- m = 3 and its largest operand. -/
theorem witness_MontgomeryProductIsReduced : 3 % 2 = 1 ∧ 3 ≤ 3 ∧ 2 < 3 ∧ mont 3 2 2 = 1 := by decide

theorem witness_MontgomeryConversions : 19 % 2 = 1 ∧ 3 ≤ 19 ∧ 18 < 19 ∧ mont 19 9 1 = 16 := by decide

theorem witness_ReductionRefinesTheProduct :
    let m' := (Config.R - 1) / 3
    3 % 2 = 1 ∧ 3 < Config.R ∧ m' < Config.R ∧ (3 * m' + 1) % Config.R = 0 ∧ 2 < 3 ∧ redc 3 m' 2 2 = 1 := by decide

/-- Off the curve; the identity; equal and inverse points; a division by zero, a missing inverse, a sum. -/
theorem witness_AddPointFollowsTheGroupLaw :
    isOnCurve curveE17 (.affine 5 2) = false ∧ isOnCurve curveE17 (.affine 5 1) = true ∧ isOnCurve curveE17 (.affine 5 16) = true ∧
    (isOnCurve curveE17b (.affine 0 0) = true ∧ (2 * 0 : Int) % 17 = 0) ∧
    (isOnCurve curveE15 (.affine 0 1) = true ∧ isOnCurve curveE15 (.affine 3 1) = true ∧ (0 - 3 : Int) % 15 ≠ 0 ∧
      Int.gcd (0 - 3) 15 ≠ 1) ∧
    (isOnCurve curveE17 (.affine 6 3) = true ∧ Int.gcd (5 - 6) 17 = 1) := by decide

theorem witness_AddPointStaysOnTheCurve :
    addPoint curveE17 (.affine 5 1) (.affine 6 3) = .ok (.affine 10 6) ∧ addPoint curveE17 .identity .identity = .ok .identity := by
  decide

theorem witness_PrimeModulusHasEveryInverse :
    curveE17b.p.Prime ∧ curveE17b.p % 2 = 1 ∧ (Point.affine 0 0).reduced curveE17b ∧ isOnCurve curveE17b (.affine 0 0) = true ∧
    addPoint curveE17b (.affine 0 0) (.affine 0 0) = .error .divisionByZero :=
  ⟨by norm_num [curveE17b], by decide, ⟨by decide, by decide⟩, by decide, by decide⟩

theorem witness_NegativeAndIdentityAreNeutral :
    curveE17.p.Prime ∧ curveE17.p % 2 = 1 ∧ 5 < curveE17.p ∧ 1 < curveE17.p ∧ isOnCurve curveE17 (.affine 5 1) = true ∧
    (curveE17b.p.Prime ∧ 16 < curveE17b.p ∧ isOnCurve curveE17b (.affine 16 0) = true) :=
  ⟨by norm_num [curveE17], by decide, by decide, by decide, by decide, by norm_num [curveE17b], by decide, by decide⟩

theorem witness_InvalidPointExactlyWhenOffTheCurve :
    3 ≤ curveE17.p ∧ curveE17.p % 2 = 1 ∧ scalarMultiply curveE17 19 1 (.affine 1 1) = .error .invalidPoint ∧
    isOnCurve curveE17 (.affine 1 1) = false := by decide

theorem witness_LastDoublingOfAnOrderTwoPointFails :
    3 ≤ curveE17b.p ∧ curveE17b.p % 2 = 1 ∧ isOnCurve curveE17b (.affine 0 0) = true ∧
    scalarMultiply curveE17b 2 1 (.affine 0 0) = .error .divisionByZero := by decide

theorem curveE17_prime : curveE17.p.Prime := by norm_num [curveE17]

/-- G of E17 is a point of the curve's group. -/
theorem witness_ScalarMultiplyIsTheGroupMultiple :
    Fact curveE17.p.Prime ∧ curveE17.p % 2 = 1 ∧ curveE17.nonsingular ∧ (∃ g, Represents curveE17 (.affine 5 1) g) ∧
    scalarMultiply curveE17 19 18 (.affine 5 1) = .ok (.affine 5 16) ∧
    scalarMultiply curveE17 19 19 (.affine 5 1) = .ok .identity := by
  refine ⟨⟨curveE17_prime⟩, by decide, by unfold Curve.nonsingular; decide, ?_, by decide, by decide +kernel⟩
  refine ⟨.some _ _ ?h, by decide, by decide, ?h, rfl⟩
  rw [WeierstrassCurve.Affine.nonsingular_iff, WeierstrassCurve.Affine.equation_iff]
  constructor
  · decide
  · left; decide

/-- The curve y² = x³ + 1 modulo 5, on which (0, 1) has order 3. -/
def curveE5 : Curve := ⟨5, 0, 1⟩

theorem curveE5_prime : curveE5.p.Prime := by norm_num [curveE5]

/-- (0, 1) as a point of the group of E5. -/
theorem curveE5_nonsingular :
    curveE5.weierstrass.Nonsingular ((0 : Nat) : ZMod curveE5.p) ((1 : Nat) : ZMod curveE5.p) := by
  rw [WeierstrassCurve.Affine.nonsingular_iff, WeierstrassCurve.Affine.equation_iff]
  exact ⟨by decide, .inr (by decide)⟩

theorem curveE5_negY :
    ((1 : Nat) : ZMod curveE5.p) ≠ curveE5.weierstrass.negY ((0 : Nat) : ZMod curveE5.p) ((1 : Nat) : ZMod curveE5.p) := by decide

/-- (0, 1) is an inflection point: it is its own third multiple's inverse sum, so it has order 3. -/
theorem curveE5_order [Fact curveE5.p.Prime] :
    addOrderOf (WeierstrassCurve.Affine.Point.some _ _ curveE5_nonsingular : curveE5.weierstrass.Point) = 3 := by
  have hy := curveE5_negY
  have hs : curveE5.weierstrass.slope ((0 : Nat) : ZMod curveE5.p) ((0 : Nat) : ZMod curveE5.p) ((1 : Nat) : ZMod curveE5.p)
      ((1 : Nat) : ZMod curveE5.p) = 0 := by
    rw [WeierstrassCurve.Affine.slope_of_Y_ne rfl hy]
    simp [Curve.weierstrass, show curveE5.a = 0 from rfl]
  have hd := WeierstrassCurve.Affine.Point.add_self_of_Y_ne' (h₁ := curveE5_nonsingular) hy
  refine addOrderOf_eq_prime (p := 3) ?_ (WeierstrassCurve.Affine.Point.some_ne_zero _)
  rw [show (3 : Nat) = 2 + 1 from rfl, add_nsmul, one_nsmul, two_nsmul, hd, neg_add_eq_zero]
  simp only [WeierstrassCurve.Affine.Point.some.injEq, hs]
  constructor <;> simp [WeierstrassCurve.Affine.addX, WeierstrassCurve.Affine.negAddY, Curve.weierstrass]

/-- Both exchanges of the scalars 2 and 2 on a point of order 3. -/
theorem witness_ScalarsMultiplyAlongTheOrder :
    curveE5.p % 2 = 1 ∧ curveE5.nonsingular ∧
    (∃ (_ : Fact curveE5.p.Prime) (g : curveE5.weierstrass.Point), addOrderOf g = 3 ∧ Represents curveE5 (.affine 0 1) g) ∧
    scalarMultiply curveE5 3 2 (.affine 0 1) = .ok (.affine 0 4) ∧
    scalarMultiply curveE5 3 2 (.affine 0 4) = .ok (.affine 0 1) ∧
    scalarMultiply curveE5 3 (2 * 2 % 3) (.affine 0 1) = .ok (.affine 0 1) := by
  refine ⟨by decide, by unfold Curve.nonsingular; decide, ?_, by decide, by decide +kernel, by decide +kernel⟩
  have hp : Fact curveE5.p.Prime := ⟨curveE5_prime⟩
  exact ⟨hp, _, curveE5_order, by decide, by decide, curveE5_nonsingular, rfl⟩

/-! #### Commands: each clause names a snapshot S that `busyWith S` holds -/

/-- `busyWith S` meets the engine hypothesis of every command statement, whatever S is. -/
theorem witness_engine (S : Registers) : (busyWith S).engine = .busy 0 S 0 := rfl

theorem witness_NopOnlyCompletes :
    (busyWith Registers.reset).engine = .busy 0 Registers.reset 0 ∧ State.reset.statusWord = 0 := by decide

/-- m = 0 and m = 20; x = m, y = m, m = 3; x = y = m − 1, m = 3 and by N. -/
theorem witness_MmulMultipliesInMontgomeryForm :
    ((regsOf 0 0 0 0 0 []).p.toNat % 2 = 0 ∧ (regsOf 0 0 0 1 0 []).n.toNat < 3 ∧ (regsOf 20 0 0 0 0 []).p.toNat % 2 = 0) ∧
    (let S := regsOf 3 0 0 0 0 [3, 2];
      ¬(S.p.toNat % 2 = 0 ∨ S.p.toNat < 3) ∧ S.v[0].toNat ≥ S.p.toNat ∧ S.v[1].toNat < S.p.toNat) ∧
    (let S := regsOf 3 0 0 19 0 [2, 2];
      ¬(S.p.toNat % 2 = 0 ∨ S.p.toNat < 3) ∧ S.v[0].toNat < S.p.toNat ∧ S.v[1].toNat < S.n.toNat ∧
        valueAfter (.mmul 5 0 1 .p) S 5 = 1) := by decide

theorem witness_FsqrSquaresInMontgomeryForm :
    (regsOf 2 0 0 0 0 []).p.toNat < 3 ∧
    (let S := regsOf 19 0 0 0 0 [2 ^ 256 - 1];
      ¬(S.p.toNat % 2 = 0 ∨ S.p.toNat < 3) ∧ S.v[0].toNat ≥ S.p.toNat ∧ statusAfter (.fsqr 5 0 .p) S = 0x306) ∧
    (let S := regsOf 19 0 0 0 0 [18];
      ¬(S.p.toNat % 2 = 0 ∨ S.p.toNat < 3) ∧ S.v[0].toNat < S.p.toNat) := by decide

theorem witness_Mr2WritesTheSquareOfTheRadix :
    (regsOf 1 0 0 0 0 []).p.toNat < 3 ∧ ¬((regsOf 3 0 0 0 0 []).p.toNat % 2 = 0 ∨ (regsOf 3 0 0 0 0 []).p.toNat < 3) := by
  decide

/-- m = 1; x = m = 2; x = 6, m = 9; x = 1, m = 2, and x = 20 above m = 17. -/
theorem witness_MinvWritesTheInverse :
    (regsOf 1 0 0 0 0 []).p.toNat < 2 ∧
    (let S := regsOf 2 0 0 0 0 [2]; 2 ≤ S.p.toNat ∧ S.v[0].toNat % S.p.toNat = 0) ∧
    (let S := regsOf 9 0 0 0 0 [6];
      2 ≤ S.p.toNat ∧ S.v[0].toNat % S.p.toNat ≠ 0 ∧ Nat.gcd (S.v[0].toNat % S.p.toNat) S.p.toNat ≠ 1) ∧
    (let S := regsOf 2 0 0 17 0 [1, 20];
      2 ≤ S.p.toNat ∧ Nat.gcd (S.v[0].toNat % S.p.toNat) S.p.toNat = 1 ∧
        2 ≤ S.n.toNat ∧ Nat.gcd (S.v[1].toNat % S.n.toNat) S.n.toNat = 1) := by decide

/-- P = 2; I[0] = 1; y = P; reduced, off and on the curve, with x = P − 1. -/
theorem witness_PchkReportsMembership :
    (regsOf 2 0 0 0 0 []).p.toNat % 2 = 0 ∧
    (let S := e17 1 [0xFFFF, 0xFFFF]; ¬(S.p.toNat % 2 = 0 ∨ S.p.toNat < 3) ∧ S.inf.getLsbD 0 = true) ∧
    (let S := e17 0 [5, 17];
      ¬(S.p.toNat % 2 = 0 ∨ S.p.toNat < 3) ∧ S.inf.getLsbD 0 = false ∧ S.v[pairY 0].toNat ≥ S.p.toNat) ∧
    (let S := e17 0 [16, 4];
      S.inf.getLsbD 0 = false ∧ S.v[pairX 0].toNat < S.p.toNat ∧ S.v[pairY 0].toNat < S.p.toNat ∧
        statusAfter (.pchk 0) S = 0x00A) := by decide

theorem point_e17 (x y : Nat) (hx : x < 17) (hy : y < 17) : (e17 0 [x, y]).point 0 = .affine x y := by
  have : ∀ x < 17, ∀ y < 17, (e17 0 [x, y]).point 0 = .affine x y := by decide
  exact this x hx y hy

/-- BadModulus; x = P; off the curve; O with a point either way; inverse points; a division by zero (E17b), a missing
inverse (E15), a sum. -/
theorem witness_PaddAddsPoints :
    (regsOf 16 2 2 19 0 []).p.toNat % 2 = 0 ∧
    (e17 0 [17, 1, 5, 1]).point 0 = .affine 17 1 ∧
    ((e17 0 [5, 2]).point 0 = .affine 5 2 ∧ isOnCurve (e17 0 [5, 2]).curve (.affine 5 2) = false) ∧
    ((e17 1 [0, 0, 5, 1]).point 0 = .identity ∧ (e17 1 [0, 0, 5, 1]).point 1 = .affine 5 1 ∧
      isOnCurve (e17 1 [0, 0, 5, 1]).curve (.affine 5 1) = true) ∧
    ((e17 0 [5, 1, 5, 16]).point 0 = .affine 5 1 ∧ (e17 0 [5, 1, 5, 16]).point 1 = .affine 5 16 ∧
      isOnCurve (e17 0 [5, 1, 5, 16]).curve (.affine 5 16) = true) ∧
    ((regsOf 17 16 0 0 0 []).point 0 = .affine 0 0 ∧ isOnCurve (regsOf 17 16 0 0 0 []).curve (.affine 0 0) = true) ∧
    (let S := regsOf 15 1 1 0 0 [0, 1, 3, 1];
      S.point 0 = .affine 0 1 ∧ S.point 1 = .affine 3 1 ∧ isOnCurve S.curve (.affine 0 1) = true ∧
        isOnCurve S.curve (.affine 3 1) = true ∧ ((0 : Int) - 3) % 15 ≠ 0 ∧ Int.gcd (0 - 3) 15 ≠ 1) ∧
    (let S := e17 0 [5, 1, 6, 3];
      S.point 1 = .affine 6 3 ∧ isOnCurve S.curve (.affine 5 1) = true ∧ isOnCurve S.curve (.affine 6 3) = true ∧
        Int.gcd (5 - 6) 17 = 1) := by decide

/-- BadModulus; O; x = P and y = P; off the curve; y = 0; a missing inverse (x = 0, y = 3 on y² = x³ + 9 modulo 15); a sum. -/
theorem witness_PdblDoublesPoints :
    (regsOf 16 2 2 19 0 []).p.toNat % 2 = 0 ∧ (e17 1 []).point 0 = .identity ∧
    (e17 0 [17, 1]).point 0 = .affine 17 1 ∧ (e17 0 [5, 17]).point 0 = .affine 5 17 ∧
    isOnCurve (e17 0 [5, 2]).curve (.affine 5 2) = false ∧
    ((regsOf 17 16 0 0 0 [16, 0]).point 0 = .affine 16 0 ∧ isOnCurve (regsOf 17 16 0 0 0 []).curve (.affine 16 0) = true) ∧
    ((regsOf 15 0 9 0 0 [0, 3]).point 0 = .affine 0 3 ∧ isOnCurve (regsOf 15 0 9 0 0 []).curve (.affine 0 3) = true ∧
      Nat.gcd (2 * 3) 15 ≠ 1) ∧
    ((e17 0 [5, 1]).point 0 = .affine 5 1 ∧ isOnCurve (e17 0 [5, 1]).curve (.affine 5 1) = true ∧ Nat.gcd (2 * 1) 17 = 1) := by
  decide

theorem witness_DoublingAnOrderTwoPointFails :
    let S := regsOf 17 16 0 0 0 [16, 0]
    S.p.toNat % 2 = 1 ∧ 3 ≤ S.p.toNat ∧ 16 < S.p.toNat ∧ S.point 0 = .affine 16 0 ∧
      isOnCurve S.curve (.affine 16 0) = true := by decide

/-- N = 0; x = P; n mod N = 0 with n = N, and O; off the curve; an error (E17b) and a result (n = 18). -/
theorem witness_PmulChecksThenMultiplies :
    ((regsOf 17 2 2 0 0 []).n.toNat = 0 ∧ ¬((regsOf 17 2 2 0 0 []).p.toNat % 2 = 0 ∨ (regsOf 17 2 2 0 0 []).p.toNat < 3)) ∧
    (e17 0 [17, 1]).point 0 = .affine 17 1 ∧
    (let S := e17 1 [0, 0, 5, 1, 0, 0, 0, 0, 19];
      S.v[8].toNat % S.n.toNat = 0 ∧ S.point 1 = .affine 5 1 ∧ S.point 0 = .identity) ∧
    (let S := e17 0 [1, 1, 0, 0, 0, 0, 0, 0, 1];
      S.point 0 = .affine 1 1 ∧ S.v[8].toNat % S.n.toNat ≠ 0 ∧ isOnCurve S.curve (.affine 1 1) = false) ∧
    (let S := regsOf 17 16 0 8 0 [0, 0, 0, 0, 0, 0, 0, 0, 1];
      S.point 0 = .affine 0 0 ∧ scalarMultiply S.curve 8 1 (.affine 0 0) = .error .divisionByZero) ∧
    (let S := e17 0 [5, 1, 0, 0, 0, 0, 0, 0, 18];
      S.point 0 = .affine 5 1 ∧ scalarMultiply S.curve 19 18 (.affine 5 1) = .ok (.affine 5 16)) := by decide

/-- The loop trace of the vectors for n = 5 (three bits); an error in the sum (off the curve) and in the doubling (E17b), each at
bit 0. -/
theorem witness_PmulRunsOverTheBitsOfTheScalar :
    (let S := e17 0 [5, 1, 0, 0, 0, 0, 0, 0, 5];
      let acc : Nat → Point := fun i => [.identity, .affine 5 1, .affine 5 1, .affine 9 16].getD i .identity;
      let addend : Nat → Point := fun i => [.affine 5 1, .affine 6 3, .affine 3 1, .affine 13 7].getD i .identity;
      S.p.toNat % 2 = 1 ∧ S.point 0 ≠ .identity ∧ S.n.toNat ≠ 0 ∧ S.v[8].toNat % S.n.toNat ≠ 0 ∧ acc 0 = .identity ∧
      addend 0 = S.point 0 ∧ 3 = bitlen S.v[8].toNat ∧
      ∀ i < 3, addPoint S.curve (addend i) (addend i) = .ok (addend (i + 1)) ∧
        ((5 : Nat).testBit i = true → addPoint S.curve (acc i) (addend i) = .ok (acc (i + 1))) ∧
        ((5 : Nat).testBit i = false → acc (i + 1) = acc i)) ∧
    (let S := e17 0 [1, 1, 0, 0, 0, 0, 0, 0, 1];
      0 < bitlen S.v[8].toNat ∧ (1 : Nat).testBit 0 = true ∧
        addPoint S.curve .identity (S.point 0) = .error .invalidPoint) ∧
    (let S := regsOf 17 16 0 8 0 [0, 0, 0, 0, 0, 0, 0, 0, 1];
      addPoint S.curve .identity (S.point 0) = .ok (.affine 0 0) ∧
        addPoint S.curve (S.point 0) (S.point 0) = .error .divisionByZero) := by decide

theorem witness_CommandsLeaveTheRestUnchanged :
    exec (.mmul 3 1 2 .p) (busyWith (regsOf 19 0 0 0 0 [0, 3, 5]))
      = .next (after (.mmul 3 1 2 .p) (regsOf 19 0 0 0 0 [0, 3, 5])) ∧
    (4 : Fin 16) ∉ destinations (.mmul 3 1 2 .p) ∧ flagDestination (.padd 1 0 0) ≠ some 0 ∧ ∀ a, Instr.nop ≠ .pchk a :=
  ⟨rfl, by decide, by decide, by decide⟩

/-- Two states that differ outside the snapshot. -/
theorem witness_OutcomeDependsOnTheSnapshotOnly :
    let S := e17 0 [5, 1]
    let s := busyWith S
    let s' : State := { s with regs := Registers.reset, werr := true, oc := true }
    s.engine = .busy 0 S 0 ∧ s'.engine = .busy 0 S 0 ∧ s ≠ s' ∧ exec (.pdbl 1 0) s = .next (after (.pdbl 1 0) S) ∧
      (after (.pdbl 1 0) S).ecode = .ok ∧ (1 : Fin 8) ∈ flagDestination (.pdbl 1 0) ∧ (2 : Fin 16) ∈ destinations (.pdbl 1 0) :=
  ⟨rfl, rfl, by decide, rfl, by decide +kernel, rfl, by decide⟩

theorem witness_WritePointEncodesTheIdentity :
    2 ^ 256 - 1 < Config.R ∧ (4 : Fin 16) ≠ pairX 1 ∧ (4 : Fin 16) ≠ pairY 1 ∧ (0 : Fin 8) ≠ 1 := by decide

/-! #### Bus, reset and steps -/

theorem witness_LegalWordsAreAccepted : State.reset.engine = .idle ∧ legal 0x001FFF01 = true := by decide

theorem witness_IllegalWordsCompleteAtOnce : State.reset.engine = .idle ∧ legal 0x00000810 = false := by decide

/-- The first and the last offset of each range, and the slots' ends. -/
theorem witness_BusReadReturnsTheMappedRegister :
    (8 ≤ 8 ∧ 31 < 32 ∧ 19 < 20) ∧ (0x014 % 4 = 0 ∧ 0x014 ≤ 0x3FC ∧ 0x3FC % 4 = 0 ∧ 0x3FC < 0x400) ∧
    (0xE00 % 4 = 0 ∧ 0xFFC % 4 = 0 ∧ 0xE00 ≤ 0xFFC ∧ 0xFFC < 0x1000) ∧ State.reset.busRead 0x420 = 0 ∧
    State.reset.busRead 0x000 = 0xEC010100 ∧ (0xFFC#12).toNat % 4 = 0 := by decide

theorem witness_BusWriteChangesOneWord :
    State.reset.engine = .idle ∧ (7 : Fin 8) ≠ 0 ∧ (State.reset.busWrite 0xD9C 5).regs.n = 5 <<< 224 := by decide

theorem witness_UnusedOffsetsIgnoreWrites :
    (19 < 20 ∧ 8 ≤ 31 ∧ 31 < 32) ∧ (0x3FC % 4 = 0 ∧ 0x3FC < 0x400) ∧ 0xFFC < 0x1000 ∧
    ((busyWith Registers.reset).busWrite 0x4A0 0x1234).werr = false := by decide

theorem witness_WritesWhileBusyAreDropped :
    (busyWith Registers.reset).engine = .busy 0 Registers.reset 0 ∧ 19 < 20 ∧ 7 < 8 ∧
    ((busyWith Registers.reset).busWrite 0xD9C 5).werr = true := by decide

theorem witness_CtrlWriteResetsSoftly : (3 : Word).getLsbD 0 = true ∧ (2 : Word).getLsbD 0 = false := by decide

/-- A word access at 0x402 while IDLE; a halfword access while BUSY with a host step to come; a byte and a wider access. -/
theorem witness_RefusedAccessesChangeNothing :
    let s := doing State.reset (.rd 0x402 .word)
    let t := doing { busyWith Registers.reset with engine := .busy 0 Registers.reset 1 } (.wr 0x400 .half (.lit 7))
    s.hostsTurn = true ∧ (0x402#12).toNat % 4 ≠ 0 ∧ s.nextHostOp = some (.rd 0x402 .word) ∧
      t.hostsTurn = true ∧ Width.half ≠ .word ∧ Width.byte ≠ .word ∧ Width.wide ≠ .word ∧ t.nextHostOp = some (.wr 0x400 .half (.lit 7)) := by decide

theorem witness_WindowStartsAtBase : windowOffset (Config.base + 0x00C) = some 0x00C := by simp [windowOffset]

theorem witness_InterruptFollowsDone :
    (0x2 : Word).getLsbD 1 = true ∧ State.reset.engine = .idle ∧ legal 0 = true ∧ (1 : Word).getLsbD 0 = true ∧
    ({ State.reset with ie := true, done := true } : State).irq = true := by decide

theorem witness_ResetValues :
    (busyWith State.reset.regs).engine = .busy 0 State.reset.regs 0 ∧ State.reset.regs.p = 0 ∧ State.reset.regs.n = 0 ∧ Instr.pchk 0 ≠ .nop ∧
    statusAfter (.pchk 0) State.reset.regs = 0x206 := by decide

/-- While IDLE, and while BUSY with a host step to come. -/
theorem witness_HardResetClearsTheBlock :
    (doing State.reset .hardReset).nextHostOp = some .hardReset ∧ (doing State.reset .hardReset).hostsTurn = true ∧
    (let s := doing { busyWith Registers.reset with engine := .busy 0 Registers.reset 1 } .hardReset;
      s.nextHostOp = some .hardReset ∧ s.hostsTurn = true) := by decide

/-- With no delay left, and with a delay left but no host operation. -/
theorem witness_StepRunsTheAcceptedCommand :
    decode 0x00000000 = .ok .nop ∧ (busyWith Registers.reset).engine = .busy 0 Registers.reset 0 ∧
    (let s : State := { busyWith Registers.reset with engine := .busy 0 Registers.reset 9 };
      s.nextHostOp = none) := by decide

theorem witness_FetchWordIsRunNext : decodeTableWord 32 0x00021301 = some (.mmul 3 1 2 .p) ∧
    0x00021301 < 2 ^ 32 := by decide

theorem witness_StepPerformsTheHostOperation :
    (State.reset.engine = .idle ∧ State.reset.nextHostOp = none) ∧
    ((doing State.reset (.rd 0xFFC .word)).hostsTurn = true ∧ (0xFFC#12).toNat % 4 = 0 ∧
      (doing State.reset (.rd 0xFFC .word)).nextHostOp = some (.rd 0xFFC .word)) ∧
    ((doing State.reset (.wr 0x00C .word (.lit 0))).nextHostOp = some (.wr 0x00C .word (.lit 0)) ∧
      (doing State.reset (.wr 0x010 .word (.lastAndNot 1))).nextHostOp = some (.wr 0x010 .word (.lastAndNot 1)) ∧
      (doing State.reset (.wr 0x010 .word (.lastOr 1))).hostsTurn = true ∧ (0x010#12).toNat % 4 = 0) ∧
    (doing State.reset (.bnz 1 0)).nextHostOp = some (.bnz 1 0) ∧ (doing State.reset (.bz 1 0)).nextHostOp = some (.bz 1 0) := by
  decide

theorem witness_BusyEngineIsUndisturbed :
    let s := doing { busyWith Registers.reset with engine := .busy 0 Registers.reset 1 } (.wr 0x00C .word (.lit 5))
    s.engine = .busy 0 Registers.reset (0 + 1) ∧ s.nextHostOp = some (.wr 0x00C .word (.lit 5)) ∧
      resets s.host.last (.wr 0x00C .word (.lit 5)) = false := by decide

theorem witness_AcceptedCommandsEnd : (busyWith Registers.reset).engine = .busy 0 Registers.reset 0 := rfl

/-- A BUSY coherent state and its step. -/
theorem witness_CoherenceIsKept :
    let s := State.reset.accept 0x00000000 0
    s.coherent = true ∧ step s = .next (s.completeOk .nothing) := ⟨by decide, rfl⟩

/-- A run of one step with the interrupt high at its end. -/
theorem witness_RunsFromCoherentStatesAreSafe :
    let s := { State.reset with ie := true }.accept 0x00000000 0
    s.coherent = true ∧ leadsTo 1 s (s.completeOk .nothing) ∧ (s.completeOk .nothing).irq = true := ⟨by decide, rfl, by decide⟩

theorem witness_WaitEndsWithTheResult :
    let S := regsOf 19 0 0 0 0 [0, 3, 5]
    let s : State :=
      { State.reset with
        regs := S
        engine := .busy 0x00021301 S 4
        host := { HostAgent.reset with program := [] ++ waitLines 0 ++ [], pc := 0 } }
    s.engine = .busy 0x00021301 S 4 ∧ decode 0x00021301 = .ok (.mmul 3 1 2 .p) ∧
      exec (.mmul 3 1 2 .p) s = .next (s.complete (ruleMmul 3 1 2 .p S)) ∧
      s.host.program = [] ++ waitLines ([] : List HostOp).length ++ [] ∧ s.host.pc = ([] : List HostOp).length :=
  ⟨rfl, by decide, rfl, rfl, rfl⟩

/-- The first line of a program, for V15. -/
theorem witness_LdvLoadsTheRegister :
    let s : State := { State.reset with host := { HostAgent.reset with program := [] ++ ldvLines 15 7 ++ [], pc := 0 } }
    s.engine = .idle ∧ s.host.program = [] ++ ldvLines 15 7 ++ [] ∧ s.host.pc = ([] : List HostOp).length := ⟨rfl, rfl, rfl⟩

theorem witness_LdqSetsTheIdentityFlag :
    let s : State := { State.reset with host := { HostAgent.reset with program := [] ++ ldqIdentityLines 7 ++ [], pc := 0 } }
    s.engine = .idle ∧ s.host.program = [] ++ ldqIdentityLines 7 ++ [] ∧ s.host.pc = ([] : List HostOp).length ∧ (0 : Fin 8) ≠ 7 :=
  ⟨rfl, rfl, rfl, by decide⟩

/-- Program 1 of the vectors: 7 · 11 mod 19. -/
theorem witness_ModmulComputesThePlainProduct :
    let s : State :=
      { State.reset with
        regs := regsOf 19 0 0 0 0 [0, 7, 11]
        host := { HostAgent.reset with program := [] ++ modmulLines 0 .p 4 1 2 3 ++ [], pc := 0 } }
    s.engine = .idle ∧ s.regs.p.toNat % 2 = 1 ∧ 3 ≤ s.regs.p.toNat ∧ s.regs.v[1].toNat < s.regs.p.toNat ∧
      s.regs.v[2].toNat < s.regs.p.toNat ∧ (3 : Fin 16) ≠ 1 ∧ (3 : Fin 16) ≠ 2 ∧ (3 : Fin 16) ≠ 4 ∧
      s.host.program = [] ++ modmulLines ([] : List HostOp).length .p 4 1 2 3 ++ [] ∧ s.host.pc = ([] : List HostOp).length := by
  refine ⟨rfl, ?_, ?_, ?_, ?_, by decide, by decide, by decide, rfl, rfl⟩ <;> decide

end Sys2Proof.Machine
end

section
/-! PROOFS. Address selection of the register window (20_memory.md R60, 00_scope.md R9). -/

namespace Sys2Proof.Machine

theorem base_mod_pageSize : Config.base % 4096 = 0 :=
  Nat.mod_eq_zero_of_dvd (Nat.dvd_mul_left 4096 Config.basePage)

/-- A distance from BASE below 4096 fits in an offset's 12 bits, so no two addresses of the window select the same offset. -/
theorem windowOffset_eq_some_iff (addr : Nat) (off : Offset) : windowOffset addr = some off ↔ addr = busAddress off := by
  have hoff : off.toNat < 4096 := off.isLt
  unfold windowOffset busAddress
  split
  case isTrue hin =>
    obtain ⟨hlow, hhigh⟩ := hin
    rw [Option.some_inj, ← BitVec.toNat_inj, BitVec.toNat_ofNat, Nat.mod_eq_of_lt (by omega)]
    omega
  case isFalse hout =>
    have hne : addr ≠ Config.base + off.toNat := by omega
    simp [hne]

@[simp] theorem windowOffset_busAddress (off : Offset) : windowOffset (busAddress off) = some off :=
  (windowOffset_eq_some_iff _ off).mpr rfl

/-- Settles O44: BASE is a whole number of pages, and an address selects an offset exactly when it is that offset's bus address. -/
theorem windowStartsAtBase : Obligations.WindowStartsAtBase :=
  ⟨base_mod_pageSize, windowOffset_busAddress, fun addr off => (windowOffset_eq_some_iff addr off).mp⟩

end Sys2Proof.Machine
end

section
/-! PROOFS. The predicate `legal` holds of exactly the words the decoder accepts (30_encoding.md R86, R87). -/

namespace Sys2Proof

/-- A bind in `Except`, whatever its error type, succeeds only when both parts do. -/
theorem except_bind_eq_ok {ε α β : Type} {x : Except ε α} {f : α → Except ε β} {b : β} :
    (x >>= f) = .ok b ↔ ∃ a, x = .ok a ∧ f a = .ok b := by
  cases x <;> simp [bind, Except.bind]

theorem exists_unused_eq_ok_iff {k : Nat} {f : BitVec k} : (∃ u, unused f = .ok u) ↔ f = 0 := by
  unfold unused
  split <;> simp_all

theorem exists_noModSel_eq_ok_iff {f : BitVec 1} : (∃ u, noModSel f = .ok u) ↔ f = 0 := by
  unfold noModSel
  split <;> simp_all

theorem exists_pairOperand_eq_ok_iff {f : BitVec 4} : (∃ q, pairOperand f = .ok q) ↔ f < 8 := by
  have hlt : f < 8 ↔ f.toNat < 8 := Iff.rfl
  unfold pairOperand
  split <;> simp_all

/-- With RSV = 0 a word is put together from its fields again. -/
theorem commandWord_fields {w : Word} (hrsv : (fields w).rsv = 0) :
    commandWord (fields w).op (fields w).d (fields w).a (fields w).b (fields w).ms = w := by
  have hzero : w.extractLsb' 21 11 = 0#11 := hrsv
  simp only [commandWord, fields]
  rw [← hzero]
  apply BitVec.eq_of_getLsbD_eq
  intro i hi
  simp only [BitVec.getLsbD_append, BitVec.getLsbD_extractLsb']
  grind

/-- Row by row, the clauses of `legal` are the tests the decoder makes on the same fields. -/
theorem legal_commandWord_iff (op : BitVec 8) (d a b : BitVec 4) (ms : BitVec 1) :
    legal (commandWord op d a b ms) = true ↔
      ∃ i, decodeFields { op := op, d := d, a := a, b := b, ms := ms, rsv := 0 } = .ok i := by
  rw [legal_commandWord]
  unfold decodeFields
  split
  all_goals
    simp [*, except_bind_eq_ok, exists_unused_eq_ok_iff, exists_noModSel_eq_ok_iff, exists_pairOperand_eq_ok_iff]
  all_goals tauto

theorem legal_of_rsv_ne_zero {w : Word} (hrsv : (fields w).rsv ≠ 0) : legal w = false := by
  have hbits : (w.extractLsb' 21 11 != 0) = true := bne_iff_ne.mpr hrsv
  unfold legal
  exact if_pos hbits

theorem legal_iff_exists_decode_eq_ok (w : Word) : legal w = true ↔ ∃ i, decode w = .ok i := by
  by_cases hrsv : (fields w).rsv = 0
  · rw [← commandWord_fields hrsv, legal_commandWord_iff, decode_commandWord]
  · have hdecode : decode w = .error .reservedBits := if_neg hrsv
    simp [hdecode, legal_of_rsv_ne_zero hrsv]

end Sys2Proof
end

section
/-! PROOFS. Coherence (10_state.md R40, R41): what it says of a BUSY engine, that every step keeps it, and that runs are safe. -/

namespace Sys2Proof.Machine

variable {s t u : State}

/-! ### What coherence says -/

theorem coherent_of_idle (h : s.engine = .idle) : s.coherent = true := by
  simp [State.coherent, h]

theorem coherent_iff_of_busy {w : Word} {S : Registers} {k : Nat} (h : s.engine = .busy w S k) :
    s.coherent = true ↔ legal w = true ∧ s.cmd = w ∧ s.regs = S ∧ s.done = false := by
  simp [State.coherent, h, and_assoc]

/-- Coherence reads the engine, CMD, the registers and DONE only, and clearing DONE keeps it. -/
theorem coherent_of_agree (h : s.coherent = true) (hengine : t.engine = s.engine) (hcmd : t.cmd = s.cmd)
    (hregs : t.regs = s.regs) (hdone : t.done = true → s.done = true) : t.coherent = true := by
  cases he : s.engine with
  | idle => exact coherent_of_idle (hengine.trans he)
  | busy w S k =>
    obtain ⟨hlegal, hw, hS, hclear⟩ := (coherent_iff_of_busy he).mp h
    have hclear' : t.done = false := by simpa [hclear] using hdone
    exact (coherent_iff_of_busy (hengine.trans he)).mpr ⟨hlegal, hcmd.trans hw, hregs.trans hS, hclear'⟩

/-- The delay is no part of coherence. -/
theorem coherent_with_delay {w : Word} {S : Registers} {j : Nat} (k : Nat) (he : s.engine = .busy w S j)
    (h : s.coherent = true) : State.coherent { s with engine := .busy w S k } = true :=
  (coherent_iff_of_busy rfl).mpr ((coherent_iff_of_busy he).mp h)

/-- DONE is 0 while a coherent state is BUSY, so the interrupt output is low. -/
theorem engine_idle_of_irq (h : s.coherent = true) (hirq : s.irq = true) : s.engine = .idle := by
  cases he : s.engine with
  | idle => rfl
  | busy w S k =>
    obtain ⟨-, -, -, hclear⟩ := (coherent_iff_of_busy he).mp h
    simp [State.irq, hclear] at hirq

/-! ### Bus writes -/

/-- Only acceptance makes the engine BUSY, and it takes the snapshot and clears DONE in the same write. -/
theorem coherent_commandWrite (s : State) (w : Word) : (s.commandWrite w).coherent = true := by
  rcases commandWrite_cases s w with ⟨e, -, h⟩ | ⟨i, hi, h⟩
  · exact coherent_of_idle (by simp [h])
  · have hlegal := (legal_iff_exists_decode_eq_ok w).mpr ⟨i, hi⟩
    rw [h]
    exact (coherent_iff_of_busy rfl).mpr ⟨hlegal, rfl, rfl, rfl⟩

theorem coherent_ctrlWrite (h : s.coherent = true) (w : Word) : (s.ctrlWrite w).coherent = true := by
  unfold State.ctrlWrite
  split
  · exact coherent_of_idle rfl
  · exact coherent_of_agree h rfl rfl rfl id

theorem coherent_statusWrite (h : s.coherent = true) (w : Word) : (s.statusWrite w).coherent = true :=
  coherent_of_agree h rfl rfl rfl fun hdone => by simp_all

/-- While IDLE, no bus write but the CMD write makes the engine BUSY. -/
theorem busWrite_idle_cases (he : s.engine = .idle) (off : Offset) (w : Word) :
    s.busWrite off w = s.commandWrite w ∨ (s.busWrite off w).engine = .idle := by
  have hbusy : s.busy = false := (s.busy_eq_false_iff).mpr he
  unfold State.busWrite
  split
  case h_1 =>
    refine .inr ?_
    unfold State.ctrlWrite
    split <;> simp [he]
  case h_5 => exact .inl (guardedWrite_of_idle hbusy _)
  all_goals exact .inr (by simp [guardedWrite_of_idle hbusy, he])

theorem coherent_busWrite (h : s.coherent = true) (off : Offset) (w : Word) : (s.busWrite off w).coherent = true := by
  cases hbusy : s.busy with
  | false =>
    have he := (s.busy_eq_false_iff).mp hbusy
    rcases busWrite_idle_cases he off w with hw | hw
    · exact hw ▸ coherent_commandWrite s w
    · exact coherent_of_idle hw
  | true =>
    rcases busWrite_busy_cases hbusy off w with ⟨-, hw⟩ | hw | hw | hw
    · exact hw ▸ coherent_ctrlWrite h w
    · exact hw ▸ coherent_statusWrite h w
    · rwa [hw]
    · exact hw ▸ coherent_of_agree h rfl rfl rfl id

/-! ### Steps -/

theorem coherent_hostOp (h : s.coherent = true) (op : HostOp) : (s.hostOp op).coherent = true := by
  rcases hostOp_cases op s with ⟨host, hop⟩ | ⟨off, data, host, -, hop⟩ | ⟨-, hop⟩
  · exact hop ▸ coherent_of_agree h rfl rfl rfl id
  · exact hop ▸ coherent_of_agree (coherent_busWrite h off (data.eval s.host.last)) rfl rfl rfl id
  · exact hop ▸ coherent_of_idle rfl

theorem coherent_hostStep (h : s.coherent = true) : s.hostStep.coherent = true := by
  rcases hostStep_cases s with ⟨-, hstep⟩ | ⟨op, -, hstep⟩
  · rwa [hstep]
  · have hmoved : (s.hostGoto (s.host.pc + 1)).coherent = true := coherent_of_agree h rfl rfl rfl id
    exact hstep ▸ coherent_hostOp hmoved op

/-- Every command ends, with an error or without, with the engine IDLE, DONE set and CTRL.IE as it was. -/
theorem exec_completes (i : Instr) (s : State) :
    ∃ t, exec i s = .next t ∧ t.engine = .idle ∧ t.done = true ∧ t.ie = s.ie := by
  rcases exec_cases i s with ⟨e, -, h⟩ | ⟨c, -, -, h⟩
  · exact ⟨_, h, rfl, rfl, rfl⟩
  · exact ⟨_, h, rfl, rfl, by cases c <;> rfl⟩

/-- A step from a coherent state answers, with a coherent state. -/
theorem step_next_coherent (h : s.coherent = true) : ∃ t, step s = .next t ∧ t.coherent = true := by
  rcases step_cases s with ⟨-, hs⟩ | ⟨w, S, k, he, -, hs⟩ | ⟨w, S, k, i, -, -, -, hs⟩ | ⟨w, S, k, e, -, -, -, hs⟩
  · exact ⟨_, hs, coherent_hostStep h⟩
  · exact ⟨_, hs, coherent_hostStep (coherent_with_delay k he h)⟩
  · obtain ⟨t, hexec, hidle, -, -⟩ := exec_completes i s
    exact ⟨t, hs.trans hexec, coherent_of_idle hidle⟩
  · exact ⟨_, hs, coherent_of_idle rfl⟩

/-- Settles O54: a step is a host operation, which keeps coherence, or a completion, which leaves the engine IDLE. -/
theorem coherenceIsKept : Obligations.CoherenceIsKept := by
  intro s t h hstep
  obtain ⟨u, hu, hcoherent⟩ := step_next_coherent h
  obtain rfl : u = t := by simpa [hu] using hstep
  exact hcoherent

/-! ### Runs -/

/-- A run reaches one state only. -/
theorem leadsTo_unique {n : Nat} (ht : leadsTo n s t) (hu : leadsTo n s u) : t = u := by
  injection ht.symm.trans hu

/-- Every run from a coherent state goes on, and stays coherent. -/
theorem leadsTo_coherent (n : Nat) : ∀ {s : State}, s.coherent = true → ∃ t, leadsTo n s t ∧ t.coherent = true := by
  induction n with
  | zero => exact fun h => ⟨_, leadsTo_zero.mpr rfl, h⟩
  | succ n ih =>
    intro s h
    obtain ⟨u, hstep, hu⟩ := step_next_coherent h
    obtain ⟨t, hrun, ht⟩ := ih hu
    exact ⟨t, leadsTo_succ.mpr ⟨u, hstep, hrun⟩, ht⟩

/-- Settles O56: all states of a run are coherent, and a coherent state with IRQ high is IDLE. -/
theorem runsFromCoherentStatesAreSafe : Obligations.RunsFromCoherentStatesAreSafe := by
  intro n s h
  refine ⟨fun k _ => leadsTo_coherent k h, fun k t _ hrun hirq => ?_⟩
  obtain ⟨u, hu, hcoherent⟩ := leadsTo_coherent k h
  obtain rfl := leadsTo_unique hu hrun
  exact engine_idle_of_irq hcoherent hirq

/-- Settles O55: after reset no command is in flight, and CTRL.IE and STATUS.DONE are 0. -/
theorem resetIsCoherent : Obligations.ResetIsCoherent :=
  ⟨coherent_of_idle rfl, rfl⟩

end Sys2Proof.Machine
end

section
/-! PROOFS. What `WritePoint` leaves in a register file (10_state.md R25, 00_scope.md R13). -/

namespace Sys2Proof.Machine

/-- The x coordinate `WritePoint` stores: 0 for the identity. -/
def Point.xValue : Point → Value
  | .identity => 0
  | .affine x _ => BitVec.ofNat Config.W x

/-- The y coordinate `WritePoint` stores: 0 for the identity. -/
def Point.yValue : Point → Value
  | .identity => 0
  | .affine _ y => BitVec.ofNat Config.W y

@[simp] theorem Registers.writePoint_pairX (r : Registers) (j : Fin 8) (pt : Point) :
    (r.writePoint j pt).v[(pairX j).val] = pt.xValue := by
  cases pt <;> simp [Registers.writePoint, Point.xValue, pairX_ne_pairY]

@[simp] theorem Registers.writePoint_pairY (r : Registers) (j : Fin 8) (pt : Point) :
    (r.writePoint j pt).v[(pairY j).val] = pt.yValue := by
  cases pt <;> simp [Registers.writePoint, Point.yValue]

@[simp] theorem Registers.writePoint_flag_self (r : Registers) (j : Fin 8) (pt : Point) :
    (r.writePoint j pt).flag j = decide (pt = .identity) :=
  (r.writePoint_flag j j pt).trans (if_pos rfl)

theorem Registers.writePoint_flag_of_ne (r : Registers) {i j : Fin 8} (pt : Point) (h : i ≠ j) :
    (r.writePoint j pt).flag i = r.flag i :=
  (r.writePoint_flag i j pt).trans (if_neg h)

/-- The pair reads back as the identity it was given. -/
theorem Registers.writePoint_point_identity (r : Registers) (j : Fin 8) :
    (r.writePoint j .identity).point j = .identity := by
  simp [Registers.point]

/-- The pair reads back as the affine point it was given, when the coordinates fit their registers. -/
theorem Registers.writePoint_point_affine (r : Registers) (j : Fin 8) {x y : Nat} (hx : x < Config.R)
    (hy : y < Config.R) : (r.writePoint j (.affine x y)).point j = .affine x y := by
  simp [Registers.point, Registers.value, Point.xValue, Point.yValue, Nat.mod_eq_of_lt hx,
    Nat.mod_eq_of_lt hy]

/-- Settles O33, by the lemmas on the pair's two registers, its flag, and the rest of the register file. -/
theorem writePointEncodesTheIdentity : Obligations.WritePointEncodesTheIdentity := by
  intro r j
  refine ⟨⟨r.writePoint_flag_self j .identity, r.writePoint_pairX j .identity, r.writePoint_pairY j .identity,
      r.writePoint_point_identity j⟩,
    fun x y hx hy => ⟨r.writePoint_flag_self j (.affine x y), ?_, ?_, r.writePoint_point_affine j hx hy⟩,
    fun pt i => r.writePoint_of_ne pt, fun pt i => r.writePoint_flag_of_ne pt, fun pt => ?_⟩
  · simp [Point.xValue, Nat.mod_eq_of_lt hx]
  · simp [Point.yValue, Nat.mod_eq_of_lt hy]
  · simp

end Sys2Proof.Machine
end

section
/-! PROOFS. What a command's commit writes and what it leaves (10_state.md R22, R23, R26, R30), and that the snapshot decides it
(R43). -/

namespace Sys2Proof.Machine

/-! ### The destinations of a commit -/

/-- The value registers a commit writes. -/
def Commit.destinations : Commit → List (Fin 16)
  | .nothing => []
  | .value d _ => [d]
  | .point d _ => [pairX d, pairY d]
  | .onCurve _ => []

/-- The pair whose identity flag a commit writes. -/
def Commit.flagDestination : Commit → Option (Fin 8)
  | .nothing => none
  | .value _ _ => none
  | .point d _ => some d
  | .onCurve _ => none

/-- A command's commit writes exactly the command's destinations. -/
theorem destinations_of_commitsTo {i : Instr} {c : Commit} (h : commitsTo i c) :
    c.destinations = destinations i ∧ c.flagDestination = flagDestination i := by
  cases i
  case nop =>
    obtain rfl : c = .nothing := h
    exact ⟨rfl, rfl⟩
  all_goals
    obtain ⟨_, rfl⟩ := h
    exact ⟨rfl, rfl⟩

/-- Only PCHK commits OC. -/
theorem eq_pchk_of_commitsTo_onCurve {i : Instr} {b : Bool} (h : commitsTo i (.onCurve b)) : ∃ a, i = .pchk a := by
  cases i
  case pchk a => exact ⟨a, rfl⟩
  all_goals simp [commitsTo] at h

/-! ### The frame of a completion -/

section
variable (s : State) (c : Commit)

@[simp] theorem State.completeOk_p : (s.completeOk c).regs.p = s.regs.p := by
  cases c <;> simp

@[simp] theorem State.completeOk_a : (s.completeOk c).regs.a = s.regs.a := by
  cases c <;> simp

@[simp] theorem State.completeOk_b : (s.completeOk c).regs.b = s.regs.b := by
  cases c <;> simp

@[simp] theorem State.completeOk_n : (s.completeOk c).regs.n = s.regs.n := by
  cases c <;> simp

@[simp] theorem State.completeOk_ie : (s.completeOk c).ie = s.ie := by cases c <;> rfl
@[simp] theorem State.completeOk_werr : (s.completeOk c).werr = s.werr := by cases c <;> rfl
@[simp] theorem State.completeOk_cmd : (s.completeOk c).cmd = s.cmd := by cases c <;> rfl
@[simp] theorem State.completeOk_host : (s.completeOk c).host = s.host := by cases c <;> rfl
@[simp] theorem State.completeOk_draws : (s.completeOk c).draws = s.draws := by cases c <;> rfl
@[simp] theorem State.completeOk_done : (s.completeOk c).done = true := rfl
@[simp] theorem State.completeOk_ecode : (s.completeOk c).ecode = .ok := rfl

variable {c}

theorem State.completeOk_value_of_notMem {r : Fin 16} (h : r ∉ c.destinations) :
    (s.completeOk c).regs.v[r.val] = s.regs.v[r.val] := by
  cases c with
  | nothing => rfl
  | value d x =>
    have hne : r ≠ d := by simpa [Commit.destinations] using h
    simp [hne]
  | point d pt =>
    obtain ⟨hx, hy⟩ : r ≠ pairX d ∧ r ≠ pairY d := by simpa [Commit.destinations] using h
    exact s.regs.writePoint_of_ne pt hx hy
  | onCurve b => rfl

theorem State.completeOk_flag_of_ne {j : Fin 8} (h : c.flagDestination ≠ some j) :
    (s.completeOk c).regs.flag j = s.regs.flag j := by
  cases c with
  | nothing => rfl
  | value d x => rfl
  | point d pt =>
    have hne : j ≠ d := fun e => h (congrArg some e.symm)
    exact s.regs.writePoint_flag_of_ne pt hne
  | onCurve b => rfl

theorem State.completeOk_oc_of_ne (h : ∀ b, c ≠ .onCurve b) : (s.completeOk c).oc = s.oc := by
  cases c with
  | onCurve b => exact absurd rfl (h b)
  | _ => rfl

/-! ### The values a completion writes are the commit's own -/

variable (s' : State)

theorem State.completeOk_value_of_mem {r : Fin 16} (h : r ∈ c.destinations) :
    (s.completeOk c).regs.v[r.val] = (s'.completeOk c).regs.v[r.val] := by
  cases c with
  | nothing => simp [Commit.destinations] at h
  | value d x =>
    obtain rfl : r = d := by simpa [Commit.destinations] using h
    simp
  | point d pt =>
    obtain rfl | rfl : r = pairX d ∨ r = pairY d := by simpa [Commit.destinations] using h
    · simp
    · simp
  | onCurve b => simp [Commit.destinations] at h

theorem State.completeOk_flag_of_eq {j : Fin 8} (h : c.flagDestination = some j) :
    (s.completeOk c).regs.flag j = (s'.completeOk c).regs.flag j := by
  cases c with
  | point d pt =>
    obtain rfl : d = j := by simpa [Commit.flagDestination] using h
    simp
  | _ => simp [Commit.flagDestination] at h

end

/-! ### Commands -/

/-- Settles O31: an error completion writes no register, and a success writes the destinations of its commit only. -/
theorem commandsLeaveTheRestUnchanged : Obligations.CommandsLeaveTheRestUnchanged := by
  intro i s t hexec
  rcases exec_cases i s with ⟨e, -, h⟩ | ⟨c, -, hc, h⟩
  · obtain rfl : s.failed e = t := by simpa [h] using hexec
    simp
  · obtain rfl : s.completeOk c = t := by simpa [h] using hexec
    obtain ⟨hvalues, hflag⟩ := destinations_of_commitsTo hc
    refine ⟨fun r hr => ?_, fun j hj => ?_, ?_, ?_, ?_, ?_, fun hpchk => ?_, ?_⟩
    · exact s.completeOk_value_of_notMem (hvalues ▸ hr)
    · exact s.completeOk_flag_of_ne (hflag ▸ hj)
    · simp
    · simp
    · simp
    · simp
    · refine s.completeOk_oc_of_ne fun b hb => ?_
      obtain ⟨a, ha⟩ := eq_pchk_of_commitsTo_onCurve (hb ▸ hc)
      exact hpchk a ha
    · simp

/-- A command in flight completes with its rule's outcome on the snapshot. -/
theorem exec_of_busy {s : State} {w : Word} {S : Registers} {k : Nat} (i : Instr) (h : s.engine = .busy w S k) :
    exec i s = .next (s.complete (ruleOf i S)) := by
  rw [exec_eq_complete, State.operands_of_busy h]

/-- Settles O32: both machines complete with the one outcome of the rule on their snapshot. -/
theorem outcomeDependsOnTheSnapshotOnly : Obligations.OutcomeDependsOnTheSnapshotOnly := by
  intro i s s' t t' w w' S k k' hs hs' ht ht'
  obtain rfl : s.complete (ruleOf i S) = t := by simpa [exec_of_busy i hs] using ht
  obtain rfl : s'.complete (ruleOf i S) = t' := by simpa [exec_of_busy i hs'] using ht'
  cases hrule : ruleOf i S with
  | error e => simp
  | ok c =>
    have hc := commitsTo_of_rule hrule
    obtain ⟨hvalues, hflag⟩ := destinations_of_commitsTo hc
    refine ⟨rfl, fun _ => ⟨fun r hr => ?_, fun j hj => ?_, ?_⟩⟩
    · exact s.completeOk_value_of_mem s' (hvalues ▸ hr)
    · exact s.completeOk_flag_of_eq s' (hflag.trans hj)
    · rintro a rfl
      obtain ⟨b, rfl⟩ := hc
      rfl

end Sys2Proof.Machine
end

section
/-! PROOFS. The writes to CTRL, STATUS and CMD (10_state.md R32, R34, R35, R40) and the interrupt output (R45). -/

namespace Sys2Proof.Machine

variable (s : State) (w : Word)

theorem busWrite_ctrl : s.busWrite 0x004 w = s.ctrlWrite w := by
  simp [State.busWrite]

theorem busWrite_status : s.busWrite 0x008 w = s.statusWrite w := by
  simp [State.busWrite]

theorem busWrite_cmd : s.busWrite 0x00C w = s.guardedWrite (State.commandWrite w) := by
  simp [State.busWrite]

/-- Settles O41: a flag stays exactly where the written bit is 0. -/
theorem statusBitsClearByWritingOne : Obligations.StatusBitsClearByWritingOne := by
  intro s w
  have hclear : ∀ flag bit : Bool, (flag && !bit) = if bit then false else flag := by decide
  rw [busWrite_status, State.statusWrite, hclear, hclear, hclear]

variable {s w}

/-- A legal word written to CMD while IDLE is accepted with the next latency. -/
theorem busWrite_cmd_of_legal (he : s.engine = .idle) (hw : legal w = true) :
    s.busWrite 0x00C w = { s.accept w (Config.latency s.draws) with draws := s.draws + 1 } := by
  obtain ⟨i, hi⟩ := (legal_iff_exists_decode_eq_ok w).mp hw
  rw [busWrite_cmd, guardedWrite_of_idle (s.busy_eq_false_iff.mpr he)]
  rcases commandWrite_cases s w with ⟨e, herr, -⟩ | ⟨_, -, h⟩
  · rw [hi] at herr
    cases herr
  · exact h

/-- Settles O34: the delay is the model's next latency. -/
theorem legalWordsAreAccepted : Obligations.LegalWordsAreAccepted :=
  fun s _ he hw => ⟨Config.latency s.draws, busWrite_cmd_of_legal he hw⟩

theorem irq_of_done_eq_true (h : s.done = true) : s.irq = s.ie := by
  simp [State.irq, h]

theorem irq_of_done_eq_false (h : s.done = false) : s.irq = false := by
  simp [State.irq, h]

/-- Settles O45: completions set DONE and keep IE; each of the four clearing events leaves DONE = 0. -/
theorem interruptFollowsDone : Obligations.InterruptFollowsDone := by
  refine ⟨fun _ => rfl, fun i s => ?_, fun s w hbit => ?_, fun s w he hw => ?_, fun s w hbit => ?_, fun _ => rfl⟩
  · obtain ⟨t, hexec, -, hdone, hie⟩ := exec_completes i s
    exact ⟨t, hexec, (irq_of_done_eq_true hdone).trans hie⟩
  · rw [busWrite_status]
    exact irq_of_done_eq_false (by simp [hbit])
  · rw [busWrite_cmd_of_legal he hw]
    exact irq_of_done_eq_false (s.accept_done w (Config.latency s.draws))
  · rw [busWrite_ctrl]
    exact irq_of_done_eq_false (by simp [State.ctrlWrite, hbit])

end Sys2Proof.Machine
end

section
/-! PROOFS. The reset state (10_state.md R46), and the step that runs a command (10_state.md R43). -/

namespace Sys2Proof.Machine

/-- With P = N = 0 every command but NOP fails its modulus check, which comes before every other. -/
theorem ruleOf_eq_badModulus {S : Registers} (hp : S.p = 0) (hn : S.n = 0) {i : Instr} (hi : i ≠ .nop) :
    ruleOf i S = .error .badModulus := by
  have hzero : ∀ ms, S.modulus ms = 0 := by
    intro ms
    cases ms <;> simp [Registers.modulus, hp, hn]
  have hcheck : checkOddModulus 0 = .error .badModulus := rfl
  cases i
  case nop => exact absurd rfl hi
  case minv => simp [ruleOf, ruleMinv, hzero]
  all_goals
    simp [ruleOf, ruleMmul, ruleFsqr, ruleMr2, rulePadd, rulePdbl, rulePmul, rulePchk, hzero, hp, hcheck, bind,
      Except.bind]

/-- Settles O46: the reset values, each by computation, then the modulus check. -/
theorem resetValues : Obligations.ResetValues := by
  refine ⟨?_, ?_, rfl, rfl, rfl, rfl, rfl, rfl, rfl, rfl, rfl, rfl, rfl, rfl, rfl, rfl, ?_,
    fun i s w S k he hp hn hi => ?_⟩
  · decide
  · decide
  · decide
  · rw [exec_of_busy i he, ruleOf_eq_badModulus hp hn hi, State.complete_error]

/-- The engine's turn completes its command (10_state.md R43). -/
theorem step_of_turn {s : State} {w : Word} {S : Registers} {k : Nat} {i : Instr} (he : s.engine = .busy w S k)
    (hturn : k = 0 ∨ s.nextHostOp = none) (hdecode : decode w = .ok i) : step s = exec i s := by
  simp [step, he, hturn, hdecode]

/-- Settles O48: with no delay or no host operation left, `step` takes its completion branch. -/
theorem stepRunsTheAcceptedCommand : Obligations.StepRunsTheAcceptedCommand :=
  fun _ _ _ _ _ he hturn hdecode => step_of_turn he hturn hdecode

/-! ### The word of the table -/

/-- The byte lanes of a word put it together again (20_memory.md R67). -/
theorem decodeBytes_lanesOfWord (w : Word) : decodeBytes (lanesOfWord w) = (decode w).map fun i => (i, []) := by
  have hword : wordOfLanes (w.extractLsb' 0 8) (w.extractLsb' 8 8) (w.extractLsb' 16 8) (w.extractLsb' 24 8) = w := by
    apply BitVec.eq_of_getLsbD_eq
    intro b hb
    simp only [wordOfLanes, BitVec.getLsbD_append, BitVec.getLsbD_extractLsb']
    grind
  simp only [lanesOfWord, decodeBytes, hword]
  cases decode w <;> rfl

/-- A 32-bit table word decodes as the command word it is. -/
theorem decode_of_decodeTableWord {n : Nat} {i : Instr} (hn : n < 2 ^ 32) (h : decodeTableWord 32 n = some i) :
    decode (BitVec.ofNat 32 n) = .ok i := by
  rw [decodeTableWord, Nat.mod_eq_of_lt hn, decodeBytes_lanesOfWord] at h
  cases hdecode : decode (BitVec.ofNat 32 n) with
  | ok j =>
    simp only [hdecode, Except.map, Option.some.injEq] at h
    rw [h]
  | error e => simp [hdecode, Except.map] at h

/-- A legal table word stands in the engine as its acceptance leaves it, with no delay. -/
theorem withFetchWord_of_decode {s : State} {n : Nat} {i : Instr} (hn : n < 2 ^ 32)
    (h : decode (BitVec.ofNat 32 n) = .ok i) : s.withFetchWord 32 n = s.accept (BitVec.ofNat 32 n) 0 := by
  simp only [State.withFetchWord, Nat.mod_eq_of_lt hn, h]

/-- Settles O49: the fetched state is BUSY with no delay left, so the engine has its turn. -/
theorem fetchWordIsRunNext : Obligations.FetchWordIsRunNext := by
  intro s n i hn htable
  have hdecode := decode_of_decodeTableWord hn htable
  rw [withFetchWord_of_decode hn hdecode]
  exact ⟨step_of_turn rfl (.inl rfl) hdecode, rfl⟩

end Sys2Proof.Machine
end

section
/-! PROOFS. The register window slot by slot: what a read of each offset returns (20_memory.md R61-R65), and that a register is
its words in address order (R62, R67). -/

namespace Sys2Proof.Machine

/-! ### The slots of the address map -/

theorem target_configOffset (c : ConfigReg) (k : Fin 8) :
    target (BitVec.ofNat 12 (configOffset c + 4 * k)) = .config c k := by
  obtain ⟨hp, ha, hb, hn⟩ := target_config k
  cases c with
  | p => exact hp
  | a => exact ha
  | b => exact hb
  | n => exact hn

/-- Slots 16 to 19 are those of the configuration registers (20_memory.md R63). -/
theorem exists_configOffset_eq {slot : Nat} (hslot : slot < 20) (h16 : 16 ≤ slot) :
    ∃ c, configOffset c = 0x400 + 0x80 * slot := by
  obtain rfl | rfl | rfl | rfl : slot = 16 ∨ slot = 17 ∨ slot = 18 ∨ slot = 19 := by omega
  · exact ⟨.p, rfl⟩
  · exact ⟨.a, rfl⟩
  · exact ⟨.b, rfl⟩
  · exact ⟨.n, rfl⟩

/-- Words 0 to 7 of each of the 20 slots are words of a register. -/
theorem target_used_slot_word {slot k : Nat} (hslot : slot < 20) (hk : k < 8) :
    (∃ i k', target (BitVec.ofNat 12 (0x400 + 0x80 * slot + 4 * k)) = .value i k') ∨
    (∃ c k', target (BitVec.ofNat 12 (0x400 + 0x80 * slot + 4 * k)) = .config c k') := by
  by_cases h16 : slot < 16
  · exact .inl ⟨_, _, target_value ⟨slot, h16⟩ ⟨k, hk⟩⟩
  · obtain ⟨c, hc⟩ := exists_configOffset_eq hslot (by omega)
    exact .inr ⟨c, _, hc ▸ target_configOffset c ⟨k, hk⟩⟩

/-! ### Reads -/

section
variable (s : State)

theorem busRead_value (i : Fin 16) (k : Fin 8) :
    s.busRead (BitVec.ofNat 12 (0x400 + 0x80 * i + 4 * k)) = getWord (s.regs.value i) k := by
  rw [State.busRead, target_value]

theorem busRead_config (c : ConfigReg) (k : Fin 8) :
    s.busRead (BitVec.ofNat 12 (configOffset c + 4 * k)) = getWord (s.regs.config c) k := by
  rw [State.busRead, target_configOffset]

theorem busRead_of_unused {off : Offset} (h : target off = .unused) : s.busRead off = 0 := by
  rw [State.busRead, h]

/-- Appending puts the high part above the low one. -/
theorem toNat_append_eq_add {m n : Nat} (x : BitVec m) (y : BitVec n) :
    (x ++ y).toNat = 2 ^ n * x.toNat + y.toNat := by
  rw [BitVec.toNat_append, ← Nat.shiftLeft_add_eq_or_of_lt y.isLt, Nat.shiftLeft_eq, Nat.mul_comm]

theorem ctrlWord_toNat : s.ctrlWord.toNat = 2 * s.ie.toNat := by
  simp only [State.ctrlWord, toNat_append_eq_add, BitVec.toNat_ofBool, BitVec.toNat_ofNat]
  omega

theorem ptinfWord_toNat : s.ptinfWord.toNat = s.regs.inf.toNat := by
  simp only [State.ptinfWord, toNat_append_eq_add, BitVec.toNat_ofNat]
  omega

theorem statusWord_toNat :
    s.statusWord.toNat = s.busy.toNat + 2 * s.done.toNat + 4 * s.err.toNat + 8 * s.oc.toNat
      + 16 * s.werr.toNat + 256 * s.ecode.number.toNat := by
  simp only [State.statusWord, toNat_append_eq_add, BitVec.toNat_ofBool, BitVec.toNat_ofNat]
  omega

end

/-! ### Accesses -/

theorem served_eq_true_iff {off : Offset} {width : Width} :
    served off width = true ↔ width = .word ∧ off.toNat % 4 = 0 := by
  simp [served]

theorem hostRead_of_served {off : Offset} {width : Width} (h : served off width = true) (s : State) :
    s.hostRead off width =
      { s with host := { s.host with last := s.busRead off, response := .data (s.busRead off) } } :=
  if_pos h

theorem hostWrite_of_served {off : Offset} {width : Width} (h : served off width = true) (s : State) (w : Word) :
    s.hostWrite off width w = { s.busWrite off w with host := { s.host with response := .written } } := by
  simp only [State.hostWrite, if_pos h, busWrite_host]

theorem hostRead_of_refused {off : Offset} {width : Width} (h : ¬served off width = true) (s : State) :
    s.hostRead off width = { s with host := { s.host with last := 0, response := .error } } :=
  if_neg h

theorem hostWrite_of_refused {off : Offset} {width : Width} (h : ¬served off width = true) (s : State) (w : Word) :
    s.hostWrite off width w = { s with host := { s.host with response := .error } } :=
  if_neg h

/-- Settles O36: the read of each target of the address map, in the order of the window. -/
theorem busReadReturnsTheMappedRegister : Obligations.BusReadReturnsTheMappedRegister := by
  intro s
  refine ⟨busRead_value s, fun k => ⟨busRead_config s .p k, busRead_config s .a k, busRead_config s .b k,
    busRead_config s .n k⟩, rfl, ctrlWord_toNat s, statusWord_toNat s, rfl, ptinfWord_toNat s, ?_, ?_, ?_⟩
  · exact fun slot k hslot h8 hk => busRead_of_unused s (target_unused_slot_word hslot h8 hk)
  · exact fun o _ ho => busRead_of_unused s (target_reserved ho)
  · exact fun off haligned => hostRead_of_served (served_eq_true_iff.mpr ⟨rfl, haligned⟩) s

/-! ### A register is its words -/

theorem getWord_toNat (x : Value) (k : Fin 8) : (getWord x k).toNat = x.toNat / (2 ^ 32) ^ k.val % 2 ^ 32 := by
  rw [getWord, BitVec.extractLsb'_toNat, Nat.shiftRight_eq_div_pow, Nat.pow_mul]

/-- A number's lowest n 32-bit digits, each at its place, make up the number modulo 2^(32n). -/
theorem sum_digits_eq_mod (x n : Nat) :
    ((List.range n).map fun k => x / (2 ^ 32) ^ k % 2 ^ 32 * 2 ^ (32 * k)).sum = x % (2 ^ 32) ^ n := by
  induction n with
  | zero => simp [Nat.mod_one]
  | succ n ih =>
    rw [List.range_succ, List.map_append, List.sum_append, ih, Nat.mod_pow_succ, List.map_singleton,
      List.sum_singleton, Nat.pow_mul, Nat.mul_comm]

/-- Settles O37: the word read at 4k is the register's k-th digit in base 2^32, and eight digits are the whole register. -/
theorem registerIsItsWordsInOrder : Obligations.RegisterIsItsWordsInOrder := by
  intro s i
  have hread : ∀ k ∈ List.range 8,
      (s.busRead (BitVec.ofNat 12 (0x400 + 0x80 * i + 4 * k))).toNat * 2 ^ (32 * k) =
        (s.regs.value i).toNat / (2 ^ 32) ^ k % 2 ^ 32 * 2 ^ (32 * k) := by
    intro k hk
    have hread := busRead_value s i ⟨k, List.mem_range.mp hk⟩
    rw [hread, getWord_toNat]
  have hfits : (s.regs.value i).toNat < (2 ^ 32) ^ 8 := (s.regs.value i).isLt
  rw [List.map_congr_left hread, sum_digits_eq_mod, Nat.mod_eq_of_lt hfits]
  rfl

end Sys2Proof.Machine
end

section
/-! PROOFS. The writes to the register slots, to PTINF and to the offsets that hold nothing (20_memory.md R64, R66, R71). -/

namespace Sys2Proof.Machine

variable (s : State) (w : Word)

theorem busWrite_of_unused {off : Offset} (h : target off = .unused) : s.busWrite off w = s := by
  rw [State.busWrite, h]

theorem busWrite_of_value {off : Offset} {i : Fin 16} {k : Fin 8} (h : target off = .value i k) :
    s.busWrite off w =
      s.guardedWrite fun s => { s with regs := s.regs.setValue i (setWord (s.regs.value i) k w) } := by
  rw [State.busWrite, h]

theorem busWrite_of_config {off : Offset} {c : ConfigReg} {k : Fin 8} (h : target off = .config c k) :
    s.busWrite off w =
      s.guardedWrite fun s => { s with regs := s.regs.setConfig c (setWord (s.regs.config c) k w) } := by
  rw [State.busWrite, h]

theorem busWrite_ptinf :
    s.busWrite 0x010 w = s.guardedWrite fun s => { s with regs := { s.regs with inf := w.setWidth 8 } } := by
  simp [State.busWrite]

/-- Settles O39: these offsets hold no register, or the constant ID. -/
theorem unusedOffsetsIgnoreWrites : Obligations.UnusedOffsetsIgnoreWrites :=
  fun s w => ⟨by simp [State.busWrite],
    fun _ _ hslot h8 hk => busWrite_of_unused s w (target_unused_slot_word hslot h8 hk),
    fun _ _ ho => busWrite_of_unused s w (target_reserved ho)⟩

/-- Settles O40: every write to one of these targets is guarded. -/
theorem writesWhileBusyAreDropped : Obligations.WritesWhileBusyAreDropped := by
  intro s w word S delay he
  have hbusy : s.busy = true := s.busy_eq_true_iff.mpr ⟨word, S, delay, he⟩
  refine ⟨?_, ?_, fun slot k hslot hk => ?_⟩
  · rw [busWrite_cmd, guardedWrite_of_busy hbusy]
  · rw [busWrite_ptinf, guardedWrite_of_busy hbusy]
  · rcases target_used_slot_word hslot hk with ⟨i, k', h⟩ | ⟨c, k', h⟩
    · rw [busWrite_of_value s w h, guardedWrite_of_busy hbusy]
    · rw [busWrite_of_config s w h, guardedWrite_of_busy hbusy]

/-! ### Writes while IDLE -/

section
variable {s}

theorem busWrite_value_of_idle (he : s.engine = .idle) (i : Fin 16) (k : Fin 8) :
    s.busWrite (BitVec.ofNat 12 (0x400 + 0x80 * i + 4 * k)) w =
      { s with regs := s.regs.setValue i (setWord (s.regs.value i) k w) } := by
  rw [busWrite_of_value s w (target_value i k), guardedWrite_of_idle (s.busy_eq_false_iff.mpr he)]

theorem busWrite_config_of_idle (he : s.engine = .idle) (c : ConfigReg) (k : Fin 8) :
    s.busWrite (BitVec.ofNat 12 (configOffset c + 4 * k)) w =
      { s with regs := s.regs.setConfig c (setWord (s.regs.config c) k w) } := by
  rw [busWrite_of_config s w (target_configOffset c k), guardedWrite_of_idle (s.busy_eq_false_iff.mpr he)]

theorem busWrite_ptinf_of_idle (he : s.engine = .idle) :
    s.busWrite 0x010 w = { s with regs := { s.regs with inf := w.extractLsb' 0 8 } } := by
  rw [busWrite_ptinf, guardedWrite_of_idle (s.busy_eq_false_iff.mpr he),
    BitVec.setWidth_eq_extractLsb' (show 8 ≤ 32 by decide)]

end

/-- Settles O38: the register written is the old one with word k replaced, of which the words are known. -/
theorem busWriteChangesOneWord : Obligations.BusWriteChangesOneWord := by
  intro s w he
  have hself (x : Value) (k : Fin 8) : (setWord x k w).extractLsb' (32 * k) 32 = w := getWord_setWord_self x k w
  have hother (x : Value) (k k' : Fin 8) (h : k' ≠ k) :
      (setWord x k w).extractLsb' (32 * k') 32 = x.extractLsb' (32 * k') 32 := getWord_setWord_of_ne x w h
  refine ⟨fun i k => ⟨_, busWrite_value_of_idle w he i k, hself _ k, hother _ k⟩, fun k => ?_,
    busWrite_ptinf_of_idle w he⟩
  exact ⟨_, _, _, _, busWrite_config_of_idle w he .p k, busWrite_config_of_idle w he .a k,
    busWrite_config_of_idle w he .b k, busWrite_config_of_idle w he .n k, hself _ k, hself _ k, hself _ k, hself _ k,
    fun k' h => ⟨hother _ k k' h, hother _ k k' h, hother _ k k' h, hother _ k k' h⟩⟩

end Sys2Proof.Machine
end

section
/-! PROOFS. The host's turn, IDLE or with a command in flight (20_memory.md R68, R71-R73; the tick is the model's, log 1). -/

namespace Sys2Proof.Machine

/-! ### What the model's tick leaves alone -/

@[simp] theorem Engine.tick_idle : Engine.idle.tick = .idle := rfl

@[simp] theorem Engine.tick_busy (w : Word) (S : Registers) (k : Nat) :
    (Engine.busy w S (k + 1)).tick = .busy w S k := rfl

/-- The state in which the host performs its next operation: its position is past it, and a command in flight is one step
nearer to its completion. -/
def State.turn (s : State) : State :=
  { s with engine := s.engine.tick, host := { s.host with pc := s.host.pc + 1 } }

@[simp] theorem State.turn_last (s : State) : s.turn.host.last = s.host.last := rfl

@[simp] theorem State.turn_busy (s : State) : s.turn.busy = s.busy := by
  unfold State.busy State.turn
  cases s.engine <;> rfl

/-- A read sees of the engine only whether it is BUSY, and nothing of the host. -/
@[simp] theorem State.turn_busRead (s : State) (off : Offset) : s.turn.busRead off = s.busRead off := by
  have hstatus : s.turn.statusWord = s.statusWord := by
    rw [State.statusWord, State.turn_busy]
    rfl
  unfold State.busRead
  cases target off with
  | status => exact hstatus
  | _ => rfl

/-- The same block with another host agent. -/
def State.withHost (host : HostAgent) (s : State) : State := { s with host := host }

/-- A guarded write looks at the host agent only if the write it guards does. -/
theorem guardedWrite_withHost {host : HostAgent} {s : State} {f : State → State}
    (hf : f (s.withHost host) = (f s).withHost host) :
    (s.withHost host).guardedWrite f = (s.guardedWrite f).withHost host := by
  cases hbusy : s.busy with
  | true =>
    rw [guardedWrite_of_busy hbusy, guardedWrite_of_busy (s := s.withHost host) hbusy]
    rfl
  | false => rw [guardedWrite_of_idle hbusy, guardedWrite_of_idle (s := s.withHost host) hbusy, hf]

theorem ctrlWrite_withHost (host : HostAgent) (s : State) (w : Word) :
    (s.withHost host).ctrlWrite w = (s.ctrlWrite w).withHost host := by
  unfold State.ctrlWrite
  split <;> rfl

theorem commandWrite_withHost (host : HostAgent) (s : State) (w : Word) :
    (s.withHost host).commandWrite w = (s.commandWrite w).withHost host := by
  unfold State.commandWrite
  split <;> rfl

/-- A bus write does not look at the host agent. -/
theorem busWrite_withHost (host : HostAgent) (s : State) (off : Offset) (w : Word) :
    (s.withHost host).busWrite off w = (s.busWrite off w).withHost host := by
  unfold State.busWrite
  cases target off with
  | ctrl => exact ctrlWrite_withHost host s w
  | cmd => exact guardedWrite_withHost (commandWrite_withHost host s w)
  | ptinf => exact guardedWrite_withHost rfl
  | value i k => exact guardedWrite_withHost rfl
  | config c k => exact guardedWrite_withHost rfl
  | id => rfl
  | status => rfl
  | unused => rfl

/-! ### The step on the host's turn -/

variable {s : State}

/-- With an operation left, the host's turn is its step once a command in flight has come nearer to its completion. -/
theorem step_eq_hostStep_tick (hturn : s.hostsTurn = true) (hop : s.nextHostOp ≠ none) :
    step s = .next (State.hostStep { s with engine := s.engine.tick }) := by
  cases he : s.engine with
  | idle =>
    have hself : { s with engine := Engine.idle } = s := by rw [← he]
    rw [Engine.tick_idle, hself]
    simp only [step, he]
  | busy w S k =>
    have hk : k ≠ 0 := by simpa [State.hostsTurn, he] using hturn
    simp only [step, he, hk, hop, or_self, if_false]
    rfl

theorem step_of_hostsTurn {op : HostOp} (hturn : s.hostsTurn = true) (hop : s.nextHostOp = some op) :
    step s = .next (s.turn.hostOp op) := by
  have hop' : State.nextHostOp { s with engine := s.engine.tick } = some op := hop
  rw [step_eq_hostStep_tick hturn (by simp [hop]), State.hostStep, hop']
  rfl

/-- Settles O43: neither access is served, so the block does not see it. -/
theorem refusedAccessesChangeNothing : Obligations.RefusedAccessesChangeNothing := by
  intro s off width data hturn hrefused
  have h : ¬served off width = true := by
    rw [served_eq_true_iff]
    tauto
  refine ⟨fun hop => ?_, fun hop => ?_⟩
  · rw [step_of_hostsTurn hturn hop, State.hostOp, hostRead_of_refused h]
    rfl
  · rw [step_of_hostsTurn hturn hop, State.hostOp, hostWrite_of_refused h]
    rfl

/-- A branch of the host: to its target, or on to the next operation. -/
theorem turn_branch (s : State) (c : Prop) [Decidable c] (target : Nat) :
    (if c then s.turn.hostGoto target else s.turn) =
      { s with
        engine := s.engine.tick
        host := { s.host with pc := if c then target else s.host.pc + 1 } } := by
  split <;> rfl

/-- A host that has no operation left, and no command in flight: nothing happens (log 16). -/
theorem step_of_idle_of_ended (he : s.engine = .idle) (hop : s.nextHostOp = none) : step s = .next s := by
  simp only [step, he, State.hostStep, hop]

/-- Settles O50: what the host's operation does in the state its turn begins with, operation by operation. -/
theorem stepPerformsTheHostOperation : Obligations.StepPerformsTheHostOperation := by
  intro s
  refine ⟨step_of_idle_of_ended, fun hturn => ⟨?_, ?_, ?_, ?_⟩⟩
  · intro off haligned hop
    have hserved := served_eq_true_iff.mpr ⟨rfl, haligned⟩
    rw [step_of_hostsTurn hturn hop, State.hostOp, hostRead_of_served hserved, State.turn_busRead]
    rfl
  · intro off data haligned hop w
    have hserved := served_eq_true_iff.mpr ⟨rfl, haligned⟩
    have hw : data.eval s.turn.host.last = w := by cases data <;> rfl
    refine ⟨_, step_of_hostsTurn hturn hop, ?_, ?_⟩
    · rw [State.hostOp, hw, hostWrite_of_served hserved]
      exact (busWrite_withHost s.host s.turn off w).symm
    · rw [State.hostOp, hostWrite_of_served hserved]
      rfl
  · intro mask target hop
    rw [step_of_hostsTurn hturn hop, State.hostOp, turn_branch, ite_not, State.turn_last]
  · intro mask target hop
    rw [step_of_hostsTurn hturn hop, State.hostOp, turn_branch, State.turn_last]

/-! ### A BUSY engine -/

/-- While BUSY a bus write that does not reset reaches none of these, and sets neither DONE nor ERR (20_memory.md R71). -/
theorem busWrite_busy_frame (hbusy : s.busy = true) {off : Offset} {w : Word}
    (hreset : off = 0x004 → w.getLsbD 0 = false) :
    (s.busWrite off w).engine = s.engine ∧ (s.busWrite off w).regs = s.regs ∧ (s.busWrite off w).cmd = s.cmd ∧
      (s.busWrite off w).oc = s.oc ∧ (s.busWrite off w).ecode = s.ecode ∧ (s.busWrite off w).draws = s.draws ∧
      ((s.busWrite off w).done = true → s.done = true) ∧ ((s.busWrite off w).err = true → s.err = true) := by
  rcases busWrite_busy_cases hbusy off w with ⟨hoff, hw⟩ | hw | hw | hw
  · rw [hw, State.ctrlWrite, hreset hoff]
    simp
  · rw [hw]
    simp +contextual
  · simp [hw]
  · simp [hw]

/-- Settles O51: of the writes that a BUSY block performs, only the CTRL write that resets reaches the engine. -/
theorem busyEngineIsUndisturbed : Obligations.BusyEngineIsUndisturbed := by
  intro s w S k op he hop hreset
  have hturn : s.hostsTurn = true := by simp [State.hostsTurn, he]
  have hbusy : s.turn.busy = true := s.turn_busy.trans (s.busy_eq_true_iff.mpr ⟨w, S, k + 1, he⟩)
  have hengine : s.turn.engine = .busy w S k := by rw [State.turn, he, Engine.tick_busy]
  refine ⟨_, step_of_hostsTurn hturn hop, ?_⟩
  rcases hostOp_cases op s.turn with ⟨host, h⟩ | ⟨off, data, host, rfl, h⟩ | ⟨rfl, -⟩
  · rw [h]
    exact ⟨hengine, rfl, rfl, rfl, rfl, rfl, id, id⟩
  · have hclear : off = 0x004 → (data.eval s.turn.host.last).getLsbD 0 = false := by
      rintro rfl
      simpa [resets] using hreset
    rw [h, ← hengine]
    exact busWrite_busy_frame hbusy hclear
  · cases hreset

end Sys2Proof.Machine
end

section
/-! PROOFS. The encoder and the decoder are inverse to each other (30_encoding.md R81, R84, R88, R92). -/

namespace Sys2Proof

/-! ### Decoding an encoded instruction -/

/-- Each arm of the decoder, on the fields its encoder arm wrote, reads the operands back. -/
@[simp] theorem decode_encode (i : Instr) : decode (encode i) = .ok i := by
  cases i <;> simp [encode, decode_commandWord, decodeFields, bind, Except.bind]

/-- A table word of 32 bits is read through its byte lanes as the command word it is (20_memory.md R67). -/
theorem decodeTableWord_toNat (w : Word) : decodeTableWord 32 w.toNat = (decode w).toOption := by
  rw [decodeTableWord, Nat.mod_eq_of_lt w.isLt, BitVec.ofNat_toNat, BitVec.setWidth_eq,
    Machine.decodeBytes_lanesOfWord]
  cases decode w <;> rfl

/-- Settles O1: `decode_encode`, also for the table word the byte lanes make up. -/
theorem decodeOfEncodeIsTheInstruction : Obligations.DecodeOfEncodeIsTheInstruction :=
  fun i => ⟨decode_encode i, by rw [decodeTableWord_toNat, decode_encode]; rfl⟩

/-- Settles O5: eight words decode by computation; in the ninth bit 3 of a pair field is set. -/
theorem workedEncodingsDecode : Obligations.WorkedEncodingsDecode := by
  unfold Obligations.WorkedEncodingsDecode
  decide

/-! ### Encoding a decoded word -/

@[simp] theorem valueField_valueOperand (f : BitVec 4) : valueField (valueOperand f) = f := rfl

@[simp] theorem modSelField_modSelOperand (f : BitVec 1) : modSelField (modSelOperand f) = f := by
  revert f
  decide

theorem pairOperand_eq_ok_iff {f : BitVec 4} {q : Fin 8} : pairOperand f = .ok q ↔ f = pairField q := by
  revert f q
  decide

theorem unused_eq_ok_iff {k : Nat} {f : BitVec k} {u : Unit} : unused f = .ok u ↔ f = 0 := by
  unfold unused
  split <;> simp_all

theorem noModSel_eq_ok_iff {f : BitVec 1} {u : Unit} : noModSel f = .ok u ↔ f = 0 := by
  unfold noModSel
  split <;> simp_all

/-- In each arm of the decoder the tests give the fields the encoder's arm writes. -/
theorem encode_of_decodeFields {f : Fields} {i : Instr} (h : decodeFields f = .ok i) :
    encode i = commandWord f.op f.d f.a f.b f.ms := by
  obtain ⟨op, d, a, b, ms, rsv⟩ := f
  have hop {n : Nat} (hn : op.toNat = n) : op = BitVec.ofNat 8 n := by simp [← hn]
  unfold decodeFields at h
  split at h
  case h_10 => cases h
  all_goals
    rename_i hn
    obtain rfl := hop hn
    simp only [except_bind_eq_ok, unused_eq_ok_iff, noModSel_eq_ok_iff, pairOperand_eq_ok_iff, Except.ok.injEq] at h
  · obtain ⟨_, rfl, _, rfl, _, rfl, _, rfl, rfl⟩ := h
    simp [encode]
  · obtain rfl := h
    simp [encode]
  · obtain ⟨_, rfl, rfl⟩ := h
    simp [encode]
  · obtain ⟨_, rfl, _, rfl, rfl⟩ := h
    simp [encode]
  · obtain ⟨_, rfl, rfl⟩ := h
    simp [encode]
  · obtain ⟨_, rfl, d, rfl, a, rfl, b, rfl, rfl⟩ := h
    simp [encode]
  · obtain ⟨_, rfl, _, rfl, d, rfl, a, rfl, rfl⟩ := h
    simp [encode]
  · obtain ⟨_, rfl, d, rfl, a, rfl, rfl⟩ := h
    simp [encode]
  · obtain ⟨_, rfl, _, rfl, _, rfl, a, rfl, rfl⟩ := h
    simp [encode]

/-- Settles O2: RSV is 0, so the word is made up of the fields the decoder read. -/
theorem encodeOfDecodeIsTheWord : Obligations.EncodeOfDecodeIsTheWord := by
  intro w i h
  by_cases hrsv : (fields w).rsv = 0
  · have hfields : decodeFields (fields w) = .ok i := (if_pos hrsv).symm.trans h
    rw [encode_of_decodeFields hfields, commandWord_fields hrsv]
  · cases (if_neg hrsv).symm.trans h

theorem decode_eq_ok_iff {w : Word} {i : Instr} : decode w = .ok i ↔ w = encode i :=
  ⟨fun h => (encodeOfDecodeIsTheWord w i h).symm, fun h => h ▸ decode_encode i⟩

end Sys2Proof
end

section
/-! PROOFS. The match and mask table against the encoder and the decoder (30_encoding.md R85, R86). -/

namespace Sys2Proof

/-- The fields of a masked word are the masked fields. -/
theorem fields_and (w m : Word) :
    fields (w &&& m) =
      { op := (fields w).op &&& (fields m).op
        d := (fields w).d &&& (fields m).d
        a := (fields w).a &&& (fields m).a
        b := (fields w).b &&& (fields m).b
        ms := (fields w).ms &&& (fields m).ms
        rsv := (fields w).rsv &&& (fields m).rsv } := by
  simp [fields, BitVec.extractLsb'_and]

/-- A word is its fields, RSV included. -/
theorem fields_inj {w v : Word} : fields w = fields v ↔ w = v := by
  refine ⟨fun h => ?_, fun h => h ▸ rfl⟩
  have hword (x : Word) :
      (fields x).rsv ++ (fields x).ms ++ (fields x).b ++ (fields x).a ++ (fields x).d ++ (fields x).op = x := by
    apply BitVec.eq_of_getLsbD_eq
    intro i hi
    simp only [fields, BitVec.getLsbD_append, BitVec.getLsbD_extractLsb']
    grind
  rw [← hword w, ← hword v, h]

theorem exists_pairField_eq_iff {f : BitVec 4} : (∃ q, f = pairField q) ↔ f &&& 8#4 = 0#4 := by
  revert f
  decide


@[simp] theorem pairField_and_eight (q : Fin 8) : pairField q &&& 8#4 = 0#4 := exists_pairField_eq_iff.mp ⟨q, rfl⟩

/-- An encoded instruction matches the row of its mnemonic, whatever its operands. -/
theorem encode_and_mask (i : Instr) :
    ∀ r ∈ opcodeTable, mnemonicOf i = r.mnemonic → encode i &&& r.mask = r.bits := by
  cases i <;> simp [opcodeTable, mnemonicOf, encode, ← fields_inj, fields_and, fields_commandWord]
  all_goals simp [fields]

/-- A row fixes the opcode and RSV, leaves each operand of the command free within its range, and fixes the other fields
at 0. -/
theorem exists_encode_of_row {w : Word} {r : TableRow} (hr : r ∈ opcodeTable) (h : w &&& r.mask = r.bits) :
    ∃ i, w = encode i ∧ mnemonicOf i = r.mnemonic := by
  have ones8 (x : BitVec 8) : x &&& 255#8 = x := BitVec.and_allOnes
  have ones4 (x : BitVec 4) : x &&& 15#4 = x := BitVec.and_allOnes
  have ones1 (x : BitVec 1) : x &&& 1#1 = x := BitVec.and_allOnes
  have ones11 (x : BitVec 11) : x &&& 2047#11 = x := BitVec.and_allOnes
  rw [← fields_inj, fields_and] at h
  simp only [← fields_inj]
  generalize fields w = f at *
  obtain ⟨op, d, a, b, ms, rsv⟩ := f
  simp only [opcodeTable, List.mem_cons, List.not_mem_nil, or_false] at hr
  rcases hr with rfl | rfl | rfl | rfl | rfl | rfl | rfl | rfl | rfl
  all_goals simp [fields, ones8, ones4, ones1, ones11, ← exists_pairField_eq_iff] at h
  · obtain ⟨rfl, rfl, rfl, rfl, rfl, rfl⟩ := h
    exact ⟨.nop, rfl, rfl⟩
  · obtain ⟨rfl, rfl⟩ := h
    exact ⟨.mmul (valueOperand d) (valueOperand a) (valueOperand b) (modSelOperand ms),
      by simp [encode, fields_commandWord], rfl⟩
  · obtain ⟨rfl, rfl, rfl⟩ := h
    exact ⟨.fsqr (valueOperand d) (valueOperand a) (modSelOperand ms), by simp [encode, fields_commandWord], rfl⟩
  · obtain ⟨rfl, rfl, rfl, rfl⟩ := h
    exact ⟨.mr2 (valueOperand d) (modSelOperand ms), by simp [encode, fields_commandWord], rfl⟩
  · obtain ⟨rfl, rfl, rfl⟩ := h
    exact ⟨.minv (valueOperand d) (valueOperand a) (modSelOperand ms), by simp [encode, fields_commandWord], rfl⟩
  · obtain ⟨rfl, ⟨d, rfl⟩, ⟨a, rfl⟩, ⟨b, rfl⟩, rfl, rfl⟩ := h
    exact ⟨.padd d a b, by simp [encode, fields_commandWord], rfl⟩
  · obtain ⟨rfl, ⟨d, rfl⟩, ⟨a, rfl⟩, rfl, rfl, rfl⟩ := h
    exact ⟨.pdbl d a, by simp [encode, fields_commandWord], rfl⟩
  · obtain ⟨rfl, ⟨d, rfl⟩, ⟨a, rfl⟩, rfl, rfl⟩ := h
    exact ⟨.pmul d a (valueOperand b), by simp [encode, fields_commandWord], rfl⟩
  · obtain ⟨rfl, rfl, ⟨a, rfl⟩, rfl, rfl, rfl⟩ := h
    exact ⟨.pchk a, by simp [encode, fields_commandWord], rfl⟩

theorem row_matches_iff {w : Word} {r : TableRow} (hr : r ∈ opcodeTable) :
    w &&& r.mask = r.bits ↔ ∃ i, decode w = .ok i ∧ mnemonicOf i = r.mnemonic := by
  simp only [decode_eq_ok_iff]
  refine ⟨exists_encode_of_row hr, ?_⟩
  rintro ⟨i, rfl, hi⟩
  exact encode_and_mask i r hr hi

/-- The mnemonic of the one instruction a word decodes to names the row. -/
theorem row_unique {w : Word} {r r' : TableRow} (hr : r ∈ opcodeTable) (hr' : r' ∈ opcodeTable)
    (h : w &&& r.mask = r.bits) (h' : w &&& r'.mask = r'.bits) : r = r' := by
  have hnames : ∀ r ∈ opcodeTable, ∀ r' ∈ opcodeTable, r.mnemonic = r'.mnemonic → r = r' := by decide
  obtain ⟨i, hi, hmnemonic⟩ := (row_matches_iff hr).mp h
  obtain ⟨j, hj, hmnemonic'⟩ := (row_matches_iff hr').mp h'
  obtain rfl : i = j := Except.ok.inj (hi.symm.trans hj)
  exact hnames r hr r' hr' (hmnemonic.symm.trans hmnemonic')

/-- Settles O4: a row's words are those of its mnemonic. -/
theorem eachRowMatchesItsOwnCommand : Obligations.EachRowMatchesItsOwnCommand :=
  ⟨fun _ _ hr => row_matches_iff hr, fun _ _ hr _ hr' h h' => row_unique hr hr' h h'⟩

theorem exists_row_of_mnemonic (m : Mnemonic) : ∃ r ∈ opcodeTable, m = r.mnemonic := by
  cases m <;> decide

/-- Settles O3: the decoder accepts what `legal` does, and each instruction it answers has its row. -/
theorem legalWordsAreTheTableRows : Obligations.LegalWordsAreTheTableRows := by
  intro w
  have hlegal := legal_iff_exists_decode_eq_ok w
  refine ⟨hlegal.trans ⟨?_, ?_⟩, hlegal⟩
  · rintro ⟨i, hi⟩
    obtain ⟨r, hr, hmnemonic⟩ := exists_row_of_mnemonic (mnemonicOf i)
    exact ⟨r, hr, (row_matches_iff hr).mpr ⟨i, hi, hmnemonic⟩⟩
  · rintro ⟨r, hr, h⟩
    obtain ⟨i, hi, -⟩ := (row_matches_iff hr).mp h
    exact ⟨i, hi⟩

end Sys2Proof
end

section
/-! PROOFS. The text of a command line reads back as the command (30_encoding.md R90). -/

namespace Sys2Proof.Machine

/-! ### Tokens -/

/-- The character neither separates nor begins a comment, and is no capital. -/
def plainChar (c : Char) : Bool := c != ';' && !isSeparator c && c.toLower == c

/-- The text is one token as it stands. -/
def plain (t : List Char) : Bool := !t.isEmpty && t.all plainChar

theorem ne_nil_of_plain {t : List Char} (ht : plain t = true) : t ≠ [] := by
  rintro rfl
  cases ht

theorem plain_append {s t : List Char} (hs : plain s = true) (ht : plain t = true) : plain (s ++ t) = true := by
  simp_all [plain]

/-- A plain text goes on with the token being read. -/
theorem tokens_append {t : List Char} (ht : plain t = true) (rest current : List Char) :
    tokens (t ++ rest) current = tokens rest (t.reverse ++ current) := by
  have hchars : t.all plainChar = true := by simp_all [plain]
  clear ht
  induction t generalizing current with
  | nil => rfl
  | cons c t ih =>
    simp only [List.all_cons, plainChar, Bool.and_eq_true, bne_iff_ne, Bool.not_eq_true', beq_iff_eq] at hchars
    obtain ⟨⟨⟨hcomment, hseparator⟩, hlower⟩, ht⟩ := hchars
    simp [tokens, hcomment, hseparator, hlower, ih _ ht]

/-- Each operand but the last ends at its comma, and the blank before an operand ends no token. -/
theorem tokens_operandText {ts : List (List Char)} (hts : ∀ t ∈ ts, plain t = true) :
    tokens (operandText ts) [] = ts := by
  induction ts using operandText.induct with
  | case1 => rfl
  | case2 t =>
    have ht := hts t (by simp)
    have hlast := tokens_append ht [] []
    simp_all [operandText, tokens, isSeparator, ne_nil_of_plain ht]
  | case3 t rest _ ih =>
    have ht := hts t (by simp)
    have hrest := ih fun t h => hts t (by simp [h])
    simp [operandText, tokens, isSeparator, tokens_append ht, ne_nil_of_plain ht, hrest]

/-- A blank, or the line's end, ends the mnemonic. -/
theorem tokens_line {head : List Char} {ts : List (List Char)} (hhead : plain head = true)
    (hts : ∀ t ∈ ts, plain t = true) : tokens (head ++ operandText ts) [] = head :: ts := by
  have hoperands := tokens_operandText hts
  rw [tokens_append hhead]
  cases ts with
  | nil => simp [operandText, tokens, ne_nil_of_plain hhead]
  | cons t rest => cases rest <;> simp_all [operandText, tokens, isSeparator, ne_nil_of_plain hhead]

/-! ### Operands -/

@[simp] theorem plain_valueText (i : Fin 16) : plain (valueText i) = true := by
  revert i
  decide

@[simp] theorem plain_pairText (j : Fin 8) : plain (pairText j) = true := by
  revert j
  decide

@[simp] theorem valueToken_valueText (i : Fin 16) : valueToken (valueText i) = some i := by
  revert i
  decide

@[simp] theorem pairToken_pairText (j : Fin 8) : pairToken (pairText j) = some j := by
  revert j
  decide

@[simp] theorem plain_modText (ms : ModSel) : plain (modText ms) = true := by
  cases ms <;> decide

@[simp] theorem modSuffix_modText (ms : ModSel) : modSuffix (modText ms) = some ms := by
  cases ms <;> rfl

@[simp] theorem modSuffix_nil : modSuffix [] = some .p := rfl

/-! ### Lines -/

theorem parseCommand_line {head : List Char} {ts : List (List Char)} (hhead : plain head = true)
    (hts : ∀ t ∈ ts, plain t = true) : parseCommand (head ++ operandText ts) = parseTokens (head :: ts) := by
  rw [parseCommand, tokens_line hhead hts]

theorem parseCommand_commandText (i : Instr) : parseCommand (commandText i) = some i := by
  cases i with
  | nop => decide
  | mmul d a b ms | fsqr d a ms | mr2 d ms | minv d a ms =>
    rw [commandText, parseCommand_line (plain_append (by decide) (plain_modText ms)) (by simp)]
    simp [parseTokens]
  | padd d a b | pdbl d a | pmul d a b | pchk a =>
    rw [commandText, parseCommand_line (by decide) (by simp)]
    simp [parseTokens]

/-- Settles O6: the tokens of the line are the mnemonic, with its suffix or without, and the operands. -/
theorem commandTextReadsBack : Obligations.CommandTextReadsBack := by
  refine ⟨parseCommand_commandText, fun d a b => ⟨?_, ?_, ?_, ?_⟩⟩
  all_goals
    rw [parseCommand_line (by decide) (by simp)]
    simp [parseTokens]

end Sys2Proof.Machine
end

section
/-! PROOFS. Where the host stands in its program, and its bus accesses one by one (20_memory.md R73, 30_encoding.md R90). -/

namespace Sys2Proof.Machine

/-! ### The host's place in its program -/

/-- The host's next operations are `ops`. -/
def HostAgent.standsAt (ops : List HostOp) (h : HostAgent) : Prop := ops <+: h.program.drop h.pc

theorem standsAt_of_eq_append {h : HostAgent} {before ops after : List HostOp}
    (hprogram : h.program = before ++ ops ++ after) (hpc : h.pc = before.length) : h.standsAt ops := by
  simp [HostAgent.standsAt, hprogram, hpc]

theorem nextHostOp_of_standsAt {s : State} {op : HostOp} {ops : List HostOp} (h : s.host.standsAt (op :: ops)) :
    s.nextHostOp = some op := by
  obtain ⟨after, hdrop⟩ := h
  have hhead : (s.host.program.drop s.host.pc)[0]? = some op := by simp [← hdrop]
  simpa [State.nextHostOp] using hhead

theorem standsAt_left {h : HostAgent} {xs ys : List HostOp} (hxys : h.standsAt (xs ++ ys)) : h.standsAt xs :=
  (List.prefix_append xs ys).trans hxys

/-- Past the operations `xs` the host stands at what comes after them. -/
theorem standsAt_right {h h' : HostAgent} {xs ys : List HostOp} (hxys : h.standsAt (xs ++ ys))
    (hprogram : h'.program = h.program) (hpc : h'.pc = h.pc + xs.length) : h'.standsAt ys := by
  obtain ⟨after, hdrop⟩ := hxys
  refine ⟨after, ?_⟩
  rw [hprogram, hpc, ← List.drop_drop, ← hdrop, List.append_assoc, List.drop_left]

/-! ### Accesses on the host's turn -/

variable {s : State}

theorem hostsTurn_of_idle (he : s.engine = .idle) : s.hostsTurn = true := by
  simp [State.hostsTurn, he]

theorem turn_engine_of_idle (he : s.engine = .idle) : s.turn.engine = .idle := by
  rw [State.turn, he, Engine.tick_idle]

/-- The state after a served read. -/
def State.afterRd (off : Offset) (s : State) : State :=
  { s with
    engine := s.engine.tick
    host := { s.host with pc := s.host.pc + 1, last := s.busRead off, response := .data (s.busRead off) } }

theorem step_rd {off : Offset} {ops : List HostOp} (hturn : s.hostsTurn = true)
    (hhost : s.host.standsAt (.rd off .word :: ops)) (haligned : off.toNat % 4 = 0) :
    step s = .next (s.afterRd off) := by
  obtain ⟨-, hops⟩ := stepPerformsTheHostOperation s
  obtain ⟨hrd, -⟩ := hops hturn
  exact hrd off haligned (nextHostOp_of_standsAt hhost)

theorem step_bnz {mask : Word} {target : Nat} {ops : List HostOp} (hturn : s.hostsTurn = true)
    (hhost : s.host.standsAt (.bnz mask target :: ops)) :
    step s = .next { s with
      engine := s.engine.tick
      host := { s.host with pc := if s.host.last &&& mask = 0 then s.host.pc + 1 else target } } := by
  obtain ⟨-, hops⟩ := stepPerformsTheHostOperation s
  obtain ⟨-, -, hbnz, -⟩ := hops hturn
  exact hbnz mask target (nextHostOp_of_standsAt hhost)

/-- The host's position moves on, and a served write reaches the block. -/
theorem step_wr {off : Offset} {data : HostData} {ops : List HostOp} (hturn : s.hostsTurn = true)
    (hhost : s.host.standsAt (.wr off .word data :: ops)) (haligned : off.toNat % 4 = 0) :
    step s = .next { s.turn.busWrite off (data.eval s.host.last) with
      host := { s.host with pc := s.host.pc + 1, response := .written } } := by
  rw [step_of_hostsTurn hturn (nextHostOp_of_standsAt hhost), State.hostOp,
    hostWrite_of_served (served_eq_true_iff.mpr ⟨rfl, haligned⟩)]
  rfl

end Sys2Proof.Machine
end

section
/-! PROOFS. The pseudo-instructions that load a register or an identity flag (30_encoding.md R91). -/

namespace Sys2Proof.Machine

/-! ### A register from its words -/

/-- The register `y` after its words `ks` were replaced by those of `x`. -/
def loadWords (x : Value) (ks : List (Fin 8)) (y : Value) : Value :=
  ks.foldl (fun y k => setWord y k (getWord x k)) y

theorem getWord_loadWords (x : Value) (ks : List (Fin 8)) (y : Value) (j : Fin 8) :
    getWord (loadWords x ks y) j = if j ∈ ks then getWord x j else getWord y j := by
  induction ks generalizing y with
  | nil => rfl
  | cons k ks ih =>
    have hstep : loadWords x (k :: ks) y = loadWords x ks (setWord y k (getWord x k)) := rfl
    rw [hstep, ih]
    by_cases hjk : j = k
    · subst hjk
      simp [getWord_setWord_self]
    · simp [hjk, getWord_setWord_of_ne y _ hjk]

/-- A register is its words. -/
theorem eq_of_getWord_eq {x y : Value} (h : ∀ k, getWord x k = getWord y k) : x = y := by
  apply BitVec.eq_of_getLsbD_eq
  intro b hb
  have hword := congrArg (fun w => BitVec.getLsbD w (b % 32)) (h ⟨b / 32, by simp only [Config.W] at hb; omega⟩)
  have hbit : 32 * (b / 32) + b % 32 = b := Nat.div_add_mod b 32
  have hlt : b % 32 < 32 := Nat.mod_lt _ (by decide)
  simpa [getWord, BitVec.getLsbD_extractLsb', hbit, hlt] using hword

theorem loadWords_all (x y : Value) : loadWords x (List.finRange 8) y = x :=
  eq_of_getWord_eq fun k => by simp [getWord_loadWords]

/-! ### ldv -/

/-- The write of word k of `ldv vI, X`. -/
def ldvLine (i : Fin 16) (x : Value) (k : Fin 8) : HostOp :=
  .wr (BitVec.ofNat 12 (0x400 + 0x80 * i + 4 * k)) .word (.lit (getWord x k))

theorem ldvLines_eq_map (i : Fin 16) (x : Value) : ldvLines i x = (List.finRange 8).map (ldvLine i x) := rfl

variable {s : State}

/-- The state after that write. -/
def State.afterLdvLine (i : Fin 16) (x : Value) (k : Fin 8) (s : State) : State :=
  { s with
    regs := s.regs.setValue i (setWord (s.regs.value i) k (getWord x k))
    host := { s.host with pc := s.host.pc + 1, response := .written } }

theorem step_ldvLine {i : Fin 16} {x : Value} {k : Fin 8} {ops : List HostOp} (he : s.engine = .idle)
    (hhost : s.host.standsAt (ldvLine i x k :: ops)) : step s = .next (s.afterLdvLine i x k) := by
  have haligned : (BitVec.ofNat 12 (0x400 + 0x80 * i + 4 * k)).toNat % 4 = 0 := by
    rw [BitVec.toNat_ofNat]
    omega
  rw [step_wr (hostsTurn_of_idle he) hhost haligned, busWrite_value_of_idle _ (turn_engine_of_idle he)]
  simp only [State.turn, State.afterLdvLine, he, Engine.tick_idle, HostData.eval]

theorem Registers.setValue_setValue (r : Registers) (i : Fin 16) (x y : Value) :
    (r.setValue i x).setValue i y = r.setValue i y := by
  simp [Registers.setValue]

theorem Registers.setValue_value (r : Registers) (i : Fin 16) : r.setValue i (r.value i) = r := by
  simp [Registers.setValue, Registers.value]

/-- The writes of any words of `ldv`, one after another. -/
theorem leadsTo_ldvLines (i : Fin 16) (x : Value) (ks : List (Fin 8)) : ∀ {s : State}, s.engine = .idle →
    s.host.standsAt (ks.map (ldvLine i x)) →
    leadsTo ks.length s
      { s with
        regs := s.regs.setValue i (loadWords x ks (s.regs.value i))
        host :=
          { s.host with
            pc := s.host.pc + ks.length
            response := if ks = [] then s.host.response else .written } } := by
  induction ks with
  | nil =>
    intro s _ _
    simp [leadsTo_zero, loadWords, Registers.setValue_value]
  | cons k ks ih =>
    intro s he hhost
    have hrest := standsAt_right (h' := (s.afterLdvLine i x k).host) (xs := [ldvLine i x k]) hhost rfl rfl
    have hrun := ih (s := s.afterLdvLine i x k) he hrest
    refine leadsTo_succ.mpr ⟨_, step_ldvLine he hhost, ?_⟩
    simpa [State.afterLdvLine, Registers.setValue_setValue, Registers.value, loadWords, Nat.add_assoc,
      Nat.add_comm 1] using hrun

/-- Settles O58: the eight words written are those of X. -/
theorem ldvLoadsTheRegister : Obligations.LdvLoadsTheRegister := by
  intro s i x before after he hprogram hpc
  have hrun := leadsTo_ldvLines i x (List.finRange 8) he (standsAt_of_eq_append hprogram hpc)
  rw [loadWords_all, hpc] at hrun
  exact hrun

/-! ### ldq -/

/-- PTINF read, with bit j set, and written back is the flag set. -/
theorem ptinf_or_eq_setFlag (j : Fin 8) :
    { s.regs with inf := (s.ptinfWord ||| (1#32 <<< j.val)).extractLsb' 0 8 } = s.regs.setFlag j true := by
  have hinf : ((0#24 ++ s.regs.inf) ||| (1#32 <<< j.val)).extractLsb' 0 8 = s.regs.inf ||| (1#8 <<< j.val) := by
    apply BitVec.eq_of_getLsbD_eq
    intro b hb
    simp [hb]
    grind
  rw [State.ptinfWord, hinf]
  rfl

theorem Registers.setFlag_true_point (r : Registers) (j : Fin 8) : (r.setFlag j true).point j = .identity :=
  if_pos ((r.setFlag_flag j j true).trans (if_pos rfl))

/-- `ldq qJ, O` sets I[J] and leaves every other register: the word read from PTINF, with bit j set, is written back. -/
theorem leadsTo_ldqIdentityLines {j : Fin 8} (he : s.engine = .idle) (hhost : s.host.standsAt (ldqIdentityLines j)) :
    ∃ t, leadsTo 2 s t ∧ t.engine = .idle ∧ t.host.pc = s.host.pc + 2 ∧ t.regs = s.regs.setFlag j true := by
  have hread := step_rd (hostsTurn_of_idle he) hhost (by decide)
  have he' : (s.afterRd 0x010).engine = .idle := by rw [State.afterRd, he, Engine.tick_idle]
  have hhost' := standsAt_right (h' := (s.afterRd 0x010).host) (xs := [.rd 0x010 .word]) hhost rfl rfl
  have hwrite := step_wr (hostsTurn_of_idle he') hhost' (by decide)
  rw [busWrite_ptinf_of_idle _ (turn_engine_of_idle he')] at hwrite
  have hrun := leadsTo_succ.mpr ⟨_, hread, leadsTo_succ.mpr ⟨_, hwrite, leadsTo_zero.mpr rfl⟩⟩
  exact ⟨_, hrun, turn_engine_of_idle he', rfl, ptinf_or_eq_setFlag j⟩

/-- Settles O59: of the flags, only I[J] is set. -/
theorem ldqSetsTheIdentityFlag : Obligations.LdqSetsTheIdentityFlag := by
  intro s j before after he hprogram hpc
  obtain ⟨t, hrun, hengine, hhost, hregs⟩ := leadsTo_ldqIdentityLines he (standsAt_of_eq_append hprogram hpc)
  refine ⟨t, hrun, hengine, hpc ▸ hhost, ?_⟩
  rw [hregs]
  exact ⟨rfl, s.regs.setFlag_true_point j, fun i hi => (s.regs.setFlag_flag i j true).trans (if_neg hi)⟩

end Sys2Proof.Machine
end

section
/-! PROOFS. A command line and the `wait` after it, whatever the latency (30_encoding.md R91, 10_state.md R40, R43). -/

namespace Sys2Proof.Machine

variable {s : State}

/-! ### The CMD write of a command line -/

/-- Settles O35: the write takes the error completion with CMD recorded. -/
theorem illegalWordsCompleteAtOnce : Obligations.IllegalWordsCompleteAtOnce := by
  intro s w he hw
  rw [busWrite_cmd, guardedWrite_of_idle (s.busy_eq_false_iff.mpr he)]
  rcases commandWrite_cases s w with ⟨_, -, h⟩ | ⟨i, hi, -⟩
  · exact h
  · simp [(legal_iff_exists_decode_eq_ok w).mpr ⟨i, hi⟩] at hw

theorem legal_encode (i : Instr) : legal (encode i) = true :=
  (legal_iff_exists_decode_eq_ok _).mpr ⟨i, decode_encode i⟩

/-- A command line while IDLE makes the engine BUSY with the command and a snapshot of the registers. -/
theorem step_commandLine {i : Instr} {ops : List HostOp} (he : s.engine = .idle)
    (hhost : s.host.standsAt (commandLine i :: ops)) :
    ∃ t, step s = .next t ∧ t.engine = .busy (encode i) s.regs (Config.latency s.draws) ∧ t.regs = s.regs ∧
      t.host.pc = s.host.pc + 1 ∧ t.host.program = s.host.program := by
  have hwrite := step_wr (hostsTurn_of_idle he) hhost (by decide)
  have hlegal : legal ((HostData.lit (encode i)).eval s.host.last) = true := legal_encode i
  rw [busWrite_cmd_of_legal (turn_engine_of_idle he) hlegal] at hwrite
  exact ⟨_, hwrite, rfl, rfl, rfl, rfl⟩

/-! ### wait -/

/-- The host is in the `wait` at position `p`: about to read STATUS, or about to branch after it has read BUSY. -/
def HostAgent.waitsAt (p : Nat) (h : HostAgent) : Prop :=
  waitLines p <+: h.program.drop p ∧ (h.pc = p ∨ h.pc = p + 1 ∧ h.last &&& 1 ≠ 0)

theorem waitsAt_of_standsAt {h : HostAgent} (hhost : h.standsAt (waitLines h.pc)) : h.waitsAt h.pc :=
  ⟨hhost, .inl rfl⟩

/-- BUSY is bit 0 of STATUS. -/
theorem busRead_status_and_one : s.busRead 0x008 &&& 1 = if s.busy then 1 else 0 := by
  have hread : s.busRead 0x008 = s.statusWord := rfl
  have hone : (1 : Word).toNat = 1 := rfl
  have hbit : (s.statusWord &&& 1).toNat = s.busy.toNat := by
    have hbusy := s.busy.toNat_lt
    rw [BitVec.toNat_and, hone, Nat.and_one_is_mod, statusWord_toNat]
    omega
  apply BitVec.eq_of_toNat_eq
  rw [hread, hbit]
  cases s.busy <;> rfl

theorem step_waitRead {p : Nat} (hturn : s.hostsTurn = true) (hlines : waitLines p <+: s.host.program.drop p)
    (hpc : s.host.pc = p) : step s = .next (s.afterRd 0x008) := by
  have hhost : s.host.standsAt (waitLines p) := by rwa [HostAgent.standsAt, hpc]
  exact step_rd hturn hhost (by decide)

theorem step_waitBranch {p : Nat} (hturn : s.hostsTurn = true) (hlines : waitLines p <+: s.host.program.drop p)
    (hpc : s.host.pc = p + 1) :
    step s = .next { s with
      engine := s.engine.tick
      host := { s.host with pc := if s.host.last &&& 1 = 0 then p + 2 else p } } := by
  have hhost := standsAt_right (h := { s.host with pc := p }) (h' := s.host) (xs := [.rd 0x008 .word]) hlines rfl hpc
  rw [step_bnz hturn hhost, hpc]

/-- While the command is in flight a step leaves the host in the `wait`, with the completion one step nearer. -/
theorem step_of_waitsAt_of_busy {p : Nat} {w : Word} {S : Registers} {k : Nat} (he : s.engine = .busy w S (k + 1))
    (hwait : s.host.waitsAt p) :
    ∃ host, step s = .next { s with engine := .busy w S k, host := host } ∧ host.program = s.host.program ∧
      host.waitsAt p := by
  have hturn : s.hostsTurn = true := by simp [State.hostsTurn, he]
  have hbusy : s.busy = true := s.busy_eq_true_iff.mpr ⟨w, S, k + 1, he⟩
  obtain ⟨hlines, hpc | ⟨hpc, hlast⟩⟩ := hwait
  · have hstep := step_waitRead hturn hlines hpc
    have hlast : s.busRead 0x008 &&& 1 ≠ 0 := by
      rw [busRead_status_and_one, hbusy]
      decide
    rw [State.afterRd, he, Engine.tick_busy] at hstep
    exact ⟨_, hstep, rfl, hlines, .inr ⟨congrArg (· + 1) hpc, hlast⟩⟩
  · have hstep := step_waitBranch hturn hlines hpc
    rw [if_neg hlast, he, Engine.tick_busy] at hstep
    exact ⟨_, hstep, rfl, hlines, .inl rfl⟩

/-- While IDLE a `wait` from its beginning reads STATUS once. -/
theorem leadsTo_waitLines_of_idle {p : Nat} (he : s.engine = .idle) (hlines : waitLines p <+: s.host.program.drop p)
    (hpc : s.host.pc = p) :
    ∃ host, leadsTo 2 s { s with host := host } ∧ host.pc = p + 2 ∧ host.program = s.host.program := by
  have he' : (s.afterRd 0x008).engine = .idle := by rw [State.afterRd, he, Engine.tick_idle]
  have hlast : (s.afterRd 0x008).host.last &&& 1 = 0 := by
    have hbusy := s.busy_eq_false_iff.mpr he
    have hbit := busRead_status_and_one (s := s)
    rwa [hbusy, if_neg Bool.false_ne_true] at hbit
  have hread := step_waitRead (hostsTurn_of_idle he) hlines hpc
  have hbranch := step_waitBranch (hostsTurn_of_idle he') hlines (congrArg (· + 1) hpc)
  rw [if_pos hlast, he', Engine.tick_idle, ← he] at hbranch
  exact ⟨_, leadsTo_succ.mpr ⟨_, hread, leadsTo_succ.mpr ⟨_, hbranch, leadsTo_zero.mpr rfl⟩⟩, rfl, rfl⟩

/-- A host that has read BUSY goes back to the read first. -/
theorem leadsTo_of_waitsAt_of_idle {p : Nat} (he : s.engine = .idle) (hwait : s.host.waitsAt p) :
    ∃ n host, leadsTo n s { s with host := host } ∧ host.pc = p + 2 ∧ host.program = s.host.program := by
  obtain ⟨hlines, hpc | ⟨hpc, hlast⟩⟩ := hwait
  · exact ⟨2, leadsTo_waitLines_of_idle he hlines hpc⟩
  · have hstep := step_waitBranch (hostsTurn_of_idle he) hlines hpc
    rw [if_neg hlast, he, Engine.tick_idle, ← he] at hstep
    obtain ⟨host, hrun, hhost⟩ :=
      leadsTo_waitLines_of_idle (s := { s with host := { s.host with pc := p } }) he hlines rfl
    exact ⟨3, host, leadsTo_succ.mpr ⟨_, hstep, hrun⟩, hhost⟩

@[simp] theorem complete_engine (r : CommandResult) (s : State) : (s.complete r).engine = .idle := by
  cases r <;> rfl

@[simp] theorem complete_done (r : CommandResult) (s : State) : (s.complete r).done = true := by
  cases r <;> rfl

@[simp] theorem complete_cmd (r : CommandResult) (s : State) : (s.complete r).cmd = s.cmd := by
  rcases r with e | c
  · rfl
  · cases c <;> rfl

@[simp] theorem complete_host (r : CommandResult) (s : State) : (s.complete r).host = s.host := by
  rcases r with e | c
  · rfl
  · cases c <;> rfl

/-- A completion does not look at the host or at the engine it ends. -/
theorem complete_withHost (r : CommandResult) (s : State) (e : Engine) (host host' : HostAgent) :
    { State.complete r { s with engine := e, host := host } with host := host' } =
      { s.complete r with host := host' } := by
  rcases r with e | c
  · rfl
  · cases c <;> rfl

/-- A `wait` beside a command in flight ends with the command completed: by induction on the delay. -/
theorem leadsTo_of_waitsAt_of_busy {p : Nat} {w : Word} {S : Registers} {k : Nat} {i : Instr}
    (hdecode : decode w = .ok i) : ∀ {s : State}, s.engine = .busy w S k → s.host.waitsAt p →
    ∃ n host, leadsTo n s { s.complete (ruleOf i S) with host := host } ∧ host.pc = p + 2 ∧
      host.program = s.host.program := by
  induction k with
  | zero =>
    intro s he hwait
    have hstep := (step_of_turn he (.inl rfl) hdecode).trans (exec_of_busy i he)
    rw [← complete_host (ruleOf i S) s] at hwait
    obtain ⟨n, host, hrun, hpc, hprogram⟩ := leadsTo_of_waitsAt_of_idle (complete_engine _ s) hwait
    exact ⟨n + 1, host, leadsTo_succ.mpr ⟨_, hstep, hrun⟩, hpc, by rw [hprogram, complete_host]⟩
  | succ k ih =>
    intro s he hwait
    obtain ⟨host, hstep, hprogram, hwait'⟩ := step_of_waitsAt_of_busy he hwait
    obtain ⟨n, host', hrun, hpc, hprogram'⟩ := ih (s := { s with engine := .busy w S k, host := host }) rfl hwait'
    rw [complete_withHost] at hrun
    exact ⟨n + 1, host', leadsTo_succ.mpr ⟨_, hstep, hrun⟩, hpc, hprogram'.trans hprogram⟩

/-- Settles O57: the run ends in the completed state, the host past the `wait`. -/
theorem waitEndsWithTheResult : Obligations.WaitEndsWithTheResult := by
  intro s t w S k i before after he hdecode hexec hprogram hpc
  obtain rfl : s.complete (ruleOf i S) = t := by simpa [exec_of_busy i he] using hexec
  rw [← hpc] at hprogram ⊢
  have hwait := waitsAt_of_standsAt (standsAt_of_eq_append hprogram hpc)
  obtain ⟨n, host, hrun, hhost, hsame⟩ := leadsTo_of_waitsAt_of_busy hdecode he hwait
  exact ⟨n, _, hrun, complete_engine _ s, hhost, hsame, rfl, rfl, rfl, complete_done _ s, rfl, complete_cmd _ s⟩

end Sys2Proof.Machine
end

section
/-! PROOFS. The inverse of the Montgomery radix and the Montgomery product as congruences (40_field_montgomery.md R100, R108). -/

namespace Sys2Proof.Machine

/-- The value `inverseMod` gives for an integer coprime to the modulus is its inverse: the Euclidean loop ends with the gcd 1 and
a Bézout coefficient. -/
theorem inverseMod_of_coprime {k : Int} {m : Nat} (hm : 2 ≤ m) (hk : Int.gcd k m = 1) :
    ∃ x, inverseMod k m = .ok x ∧ x < m ∧ k * x ≡ 1 [ZMOD m] := by
  have hpos : 0 < m := by omega
  have hres : (residue k m : Int) ≡ k [ZMOD m] := by
    rw [residue_cast hpos]
    exact Int.mod_modEq k m
  have hgcd : Nat.gcd m (residue k m) = 1 := by
    rw [← hk, Nat.gcd_comm, ← Int.gcd_natCast_natCast, residue_cast hpos, Int.gcd_emod]
  have hne : residue k m ≠ 0 := by
    intro hzero
    rw [hzero, Nat.gcd_zero_right] at hgcd
    omega
  have hloop := euclid_gcd (residue k m) m (residue k m) 0 1 le_rfl
  have hbezout := euclid_bezout m k (residue k m) m (residue k m) 0 1 (by simp [Int.ModEq]) (by simpa using hres.symm)
  rw [hgcd] at hloop
  rw [hloop] at hbezout
  refine ⟨_, by simp [inverseMod, hne, hloop], residue_lt hpos (euclid (residue k m) m (residue k m) 0 1).2, ?_⟩
  rw [residue_cast hpos, mul_comm]
  exact ((Int.mod_modEq _ _).mul_right k).trans hbezout

theorem coprime_radix {m : Nat} (hodd : m % 2 = 1) : Nat.Coprime Config.R m :=
  Nat.Coprime.pow_left _ (Nat.coprime_two_left.mpr (Nat.odd_iff.mpr hodd))

/-- Rinv of an odd modulus is the inverse of R (R100). -/
theorem radix_mul_montgomeryRinv {m : Nat} (hodd : m % 2 = 1) (hm : 3 ≤ m) :
    Config.R * montgomeryRinv m ≡ 1 [MOD m] := by
  obtain ⟨x, hx, -, hinv⟩ := inverseMod_of_coprime (k := (Config.R : Nat)) (m := m) (by omega)
    ((Int.gcd_natCast_natCast _ _).trans (coprime_radix hodd))
  rw [montgomeryRinv, hx]
  exact_mod_cast hinv

/-- The Montgomery product times R is the plain product (R100). -/
theorem radix_mul_mont {m : Nat} (hodd : m % 2 = 1) (hm : 3 ≤ m) (a b : Nat) :
    Config.R * mont m a b ≡ a * b [MOD m] :=
  calc Config.R * mont m a b ≡ Config.R * (a * b * montgomeryRinv m) [MOD m] := (Nat.mod_modEq _ m).mul_left Config.R
    _ = a * b * (Config.R * montgomeryRinv m) := by ring
    _ ≡ a * b * 1 [MOD m] := (radix_mul_montgomeryRinv hodd hm).mul_left (a * b)
    _ = a * b := mul_one _

theorem mont_lt {m : Nat} (hm : 0 < m) (a b : Nat) : mont m a b < m := Nat.mod_lt _ hm

theorem radix_sq : 2 ^ (2 * Config.W) = Config.R * Config.R := by
  rw [two_mul, pow_add]

/-- A second product with R² mod m takes the first one's Rinv away (R108). -/
theorem mont_mont_radixSq {m : Nat} (hodd : m % 2 = 1) (hm : 3 ≤ m) (x y : Nat) :
    mont m (mont m x y) (2 ^ (2 * Config.W) % m) = x * y % m := by
  have hcancel : Config.R * mont m (mont m x y) (2 ^ (2 * Config.W) % m) ≡ Config.R * (x * y) [MOD m] :=
    calc Config.R * mont m (mont m x y) (2 ^ (2 * Config.W) % m)
        ≡ mont m x y * (2 ^ (2 * Config.W) % m) [MOD m] := radix_mul_mont hodd hm _ _
      _ ≡ mont m x y * 2 ^ (2 * Config.W) [MOD m] := (Nat.mod_modEq _ m).mul_left _
      _ = Config.R * (Config.R * mont m x y) := by
        rw [radix_sq]
        ring
      _ ≡ Config.R * (x * y) [MOD m] := (radix_mul_mont hodd hm x y).mul_left _
  have hcongr := Nat.ModEq.cancel_left_of_coprime (coprime_radix hodd).symm hcancel
  rwa [Nat.ModEq, Nat.mod_eq_of_lt (mont_lt (by omega) _ _)] at hcongr

end Sys2Proof.Machine
end

section
/-! PROOFS. A command run to its end by its line and a `wait`, and the program `modmul` (30_encoding.md R91). -/

namespace Sys2Proof.Machine

@[simp] theorem Registers.setValue_modulus (r : Registers) (i : Fin 16) (x : Value) (ms : ModSel) :
    (r.setValue i x).modulus ms = r.modulus ms := by
  cases ms <;> rfl

theorem Registers.modulus_lt (r : Registers) (ms : ModSel) : r.modulus ms < Config.R := by
  cases ms
  · exact r.p.isLt
  · exact r.n.isLt

theorem Registers.setValue_value_self (r : Registers) (i : Fin 16) (x : Value) : (r.setValue i x).value i = x :=
  r.setValue_self i x

theorem Registers.setValue_value_of_ne (r : Registers) {i j : Fin 16} (x : Value) (h : j ≠ i) :
    (r.setValue i x).value j = r.value j :=
  r.setValue_of_ne x h

theorem ruleOf_mr2 {S : Registers} {ms : ModSel} {m : Nat} (d : Fin 16) (hodd : m % 2 = 1) (hm : 3 ≤ m)
    (hmodulus : S.modulus ms = m) :
    ruleOf (.mr2 d ms) S = .ok (.value d (BitVec.ofNat Config.W (2 ^ (2 * Config.W) % m))) := by
  have hcheck : checkOddModulus m = .ok () := checkOddModulus_eq_ok.mpr (by omega)
  simp only [ruleOf, ruleMr2, hmodulus, hcheck]
  rfl

theorem ruleOf_mmul {S : Registers} {ms : ModSel} {a b : Fin 16} {m x y : Nat} (d : Fin 16) (hodd : m % 2 = 1)
    (hm : 3 ≤ m) (hmodulus : S.modulus ms = m) (ha : (S.value a).toNat = x) (hb : (S.value b).toNat = y) (hx : x < m)
    (hy : y < m) : ruleOf (.mmul d a b ms) S = .ok (.value d (BitVec.ofNat Config.W (mont m x y))) := by
  have hcheck : checkOddModulus m = .ok () := checkOddModulus_eq_ok.mpr (by omega)
  simp only [ruleOf, ruleMmul, hmodulus, ha, hb, hcheck, checkReduced_eq_ok.mpr hx, checkReduced_eq_ok.mpr hy]
  rfl

/-- A command line and its `wait` commit the value the command's rule gives. -/
theorem leadsTo_runLines {s : State} {i : Instr} {d : Fin 16} {x : Value} (he : s.engine = .idle)
    (hhost : s.host.standsAt (runLines s.host.pc i)) (hrule : ruleOf i s.regs = .ok (.value d x)) :
    ∃ n u, leadsTo n s u ∧ u.engine = .idle ∧ u.ecode = .ok ∧ u.regs = s.regs.setValue d x ∧
      u.host.pc = s.host.pc + 3 ∧ u.host.program = s.host.program := by
  obtain ⟨t, hstep, hbusy, hregs, hpc, hprogram⟩ := step_commandLine he hhost
  have hwait : t.host.waitsAt t.host.pc :=
    waitsAt_of_standsAt (standsAt_right (xs := [commandLine i]) (hpc ▸ hhost) hprogram hpc)
  obtain ⟨n, host, hrun, hpc', hprogram'⟩ := leadsTo_of_waitsAt_of_busy (decode_encode i) hbusy hwait
  rw [hrule] at hrun
  refine ⟨n + 1, _, leadsTo_succ.mpr ⟨t, hstep, hrun⟩, rfl, rfl, ?_, ?_, hprogram'.trans hprogram⟩
  · simp [hregs]
  · rw [hpc', hpc]

/-- The three commands of `modmul`: R² mod m in V[T], then the Montgomery product of the sources in V[D], then that of V[D] and
V[T] in V[D]. -/
theorem leadsTo_modmulLines {s : State} {ms : ModSel} {d a b t : Fin 16} {m x y : Nat} (he : s.engine = .idle)
    (hhost : s.host.standsAt (modmulLines s.host.pc ms d a b t)) (hta : t ≠ a) (htb : t ≠ b) (htd : t ≠ d)
    (hmodulus : s.regs.modulus ms = m) (hodd : m % 2 = 1) (hm : 3 ≤ m) (ha : (s.regs.value a).toNat = x)
    (hb : (s.regs.value b).toNat = y) (hx : x < m) (hy : y < m) :
    ∃ n u, leadsTo n s u ∧ u.engine = .idle ∧ u.ecode = .ok ∧ u.host.pc = s.host.pc + 9 ∧
      u.regs = (s.regs.setValue t (BitVec.ofNat Config.W (2 ^ (2 * Config.W) % m))).setValue d
        (BitVec.ofNat Config.W (mont m (mont m x y) (2 ^ (2 * Config.W) % m))) := by
  have hfits {z : Nat} (hz : z < m) : (BitVec.ofNat Config.W z).toNat = z := by
    rw [BitVec.toNat_ofNat, Nat.mod_eq_of_lt (hz.trans (hmodulus ▸ s.regs.modulus_lt ms))]
  have hr2 : 2 ^ (2 * Config.W) % m < m := Nat.mod_lt _ (by omega)
  have hxy : mont m x y < m := mont_lt (by omega) x y
  have hfirst := standsAt_left hhost
  obtain ⟨n1, u1, hrun1, he1, -, hregs1, hpc1, hprogram1⟩ :=
    leadsTo_runLines he (standsAt_left hfirst) (ruleOf_mr2 t hodd hm hmodulus)
  have hrule2 : ruleOf (.mmul d a b ms) u1.regs = .ok (.value d (BitVec.ofNat Config.W (mont m x y))) := by
    apply ruleOf_mmul d hodd hm _ _ _ hx hy
    · simp [hregs1, hmodulus]
    · rw [hregs1, Registers.setValue_value_of_ne _ _ hta.symm, ha]
    · rw [hregs1, Registers.setValue_value_of_ne _ _ htb.symm, hb]
  have hhost1 := standsAt_right hfirst hprogram1 hpc1
  rw [← hpc1] at hhost1
  obtain ⟨n2, u2, hrun2, he2, -, hregs2, hpc2, hprogram2⟩ := leadsTo_runLines he1 hhost1 hrule2
  have hrule3 : ruleOf (.mmul d d t ms) u2.regs =
      .ok (.value d (BitVec.ofNat Config.W (mont m (mont m x y) (2 ^ (2 * Config.W) % m)))) := by
    apply ruleOf_mmul d hodd hm _ _ _ hxy hr2
    · simp [hregs2, hregs1, hmodulus]
    · rw [hregs2, Registers.setValue_value_self, hfits hxy]
    · rw [hregs2, Registers.setValue_value_of_ne _ _ htd, hregs1, Registers.setValue_value_self, hfits hr2]
  have hpc12 : u2.host.pc = s.host.pc + 6 := by omega
  have hhost2 := standsAt_right hhost (hprogram2.trans hprogram1) hpc12
  rw [← hpc12] at hhost2
  obtain ⟨n3, u3, hrun3, he3, hcode, hregs3, hpc3, -⟩ := leadsTo_runLines he2 hhost2 hrule3
  refine ⟨n1 + n2 + n3, u3, leadsTo_add (leadsTo_add hrun1 hrun2) hrun3, he3, hcode, by omega, ?_⟩
  rw [hregs3, hregs2, hregs1, Registers.setValue_setValue]

/-- Settles O60: the second product takes the first one's Rinv away again. -/
theorem modmulComputesThePlainProduct : Obligations.ModmulComputesThePlainProduct := by
  intro s ms d a b t before after he m x y hta htb htd hodd hm hx hy hprogram hpc
  have hmodulus : s.regs.modulus ms = m := by cases ms <;> rfl
  have hfits {z : Nat} : (BitVec.ofNat Config.W (z % m)).toNat = z % m := by
    rw [BitVec.toNat_ofNat, Nat.mod_eq_of_lt]
    exact (Nat.mod_lt z (by omega)).trans (hmodulus ▸ s.regs.modulus_lt ms)
  clear_value m
  rw [← hpc] at hprogram
  obtain ⟨n, u, hrun, hengine, hcode, hhost, hregs⟩ := leadsTo_modmulLines (x := x) (y := y) he
    (standsAt_of_eq_append hprogram hpc) hta htb htd hmodulus hodd hm rfl rfl hx hy
  rw [mont_mont_radixSq hodd hm, radix_sq] at hregs
  refine ⟨n, u, hrun, hengine, hpc ▸ hhost, hcode, ?_, ?_, fun r hrd hrt => ?_⟩
  · rw [hregs, Fin.getElem_fin, Registers.setValue_self, hfits]
  · rw [hregs, Fin.getElem_fin, Registers.setValue_of_ne _ _ htd, Registers.setValue_self, hfits]
  · rw [hregs, Fin.getElem_fin, Registers.setValue_of_ne _ _ hrd, Registers.setValue_of_ne _ _ hrt]
    rfl

end Sys2Proof.Machine
end

section
/-! PROOFS. The Montgomery product, pinned by its product with the radix, and Montgomery reduction (40_field_montgomery.md R100,
R107, R108). -/

namespace Sys2Proof.Machine

/-! ### The inverse of the radix -/

theorem montgomeryRinv_lt {m : Nat} (hodd : m % 2 = 1) (hm : 3 ≤ m) : montgomeryRinv m < m := by
  obtain ⟨x, hx, hlt, -⟩ := inverseMod_of_coprime (k := (Config.R : Nat)) (m := m) (by omega)
    ((Int.gcd_natCast_natCast _ _).trans (coprime_radix hodd))
  rwa [montgomeryRinv, hx]

theorem radix_mul_montgomeryRinv_mod {m : Nat} (hodd : m % 2 = 1) (hm : 3 ≤ m) :
    Config.R * montgomeryRinv m % m = 1 :=
  Eq.trans (radix_mul_montgomeryRinv hodd hm) (Nat.mod_eq_of_lt (by omega))

/-- R is invertible, so a residue is known by its product with R. -/
theorem eq_of_radix_mul_modEq {m x y : Nat} (hodd : m % 2 = 1) (hx : x < m) (hy : y < m)
    (h : Config.R * x ≡ Config.R * y [MOD m]) : x = y :=
  (Nat.ModEq.cancel_left_of_coprime (coprime_radix hodd).symm h).eq_of_lt_of_lt hx hy

/-- The Montgomery product is the one residue whose product with R is the plain product (R100). -/
theorem mont_eq_of_radix_mul_modEq {m a b u : Nat} (hodd : m % 2 = 1) (hm : 3 ≤ m) (hu : u < m)
    (h : Config.R * u ≡ a * b [MOD m]) : mont m a b = u :=
  eq_of_radix_mul_modEq hodd (mont_lt (by omega) a b) hu ((radix_mul_mont hodd hm a b).trans h.symm)

/-- Settles O8: the Euclidean loop's value is the inverse, and `mont` is defined by it. -/
theorem montgomeryProductIsReduced : Obligations.MontgomeryProductIsReduced := by
  intro m hodd hm
  have hlt := montgomeryRinv_lt hodd hm
  have hinv := radix_mul_montgomeryRinv_mod hodd hm
  exact ⟨montgomeryRinv m, hlt, hinv, fun x hx hxinv => eq_of_radix_mul_modEq hodd hx hlt (hxinv.trans hinv.symm),
    fun a b _ _ => ⟨rfl, mont_lt (by omega) a b⟩⟩

/-! ### Conversions -/

/-- The product with R² mod m brings a value into Montgomery form (R108). -/
theorem mont_radixSq {m : Nat} (hodd : m % 2 = 1) (hm : 3 ≤ m) (x : Nat) :
    mont m x (2 ^ (2 * Config.W) % m) = x * Config.R % m := by
  apply mont_eq_of_radix_mul_modEq hodd hm (Nat.mod_lt _ (by omega))
  calc Config.R * (x * Config.R % m) ≡ Config.R * (x * Config.R) [MOD m] := (Nat.mod_modEq _ m).mul_left _
    _ = x * 2 ^ (2 * Config.W) := by
      rw [radix_sq]
      ring
    _ ≡ x * (2 ^ (2 * Config.W) % m) [MOD m] := (Nat.mod_modEq _ m).symm.mul_left x

/-- The product of two Montgomery forms is the Montgomery form of the product (R108). -/
theorem mont_montgomeryForms {m : Nat} (hodd : m % 2 = 1) (hm : 3 ≤ m) (x y : Nat) :
    mont m (x * Config.R % m) (y * Config.R % m) = x * y * Config.R % m := by
  apply mont_eq_of_radix_mul_modEq hodd hm (Nat.mod_lt _ (by omega))
  calc Config.R * (x * y * Config.R % m) ≡ Config.R * (x * y * Config.R) [MOD m] := (Nat.mod_modEq _ m).mul_left _
    _ = x * Config.R * (y * Config.R) := by ring
    _ ≡ x * Config.R % m * (y * Config.R % m) [MOD m] := (Nat.mod_modEq _ m).symm.mul (Nat.mod_modEq _ m).symm

/-- Settles O9: of the four, the product with 1 is the definition. -/
theorem montgomeryConversions : Obligations.MontgomeryConversions := by
  intro m x y hodd hm _ _
  refine ⟨mont_radixSq hodd hm x, ⟨montgomeryRinv m, montgomeryRinv_lt hodd hm, radix_mul_montgomeryRinv_mod hodd hm, ?_⟩,
    mont_mont_radixSq hodd hm x y, mont_montgomeryForms hodd hm x y⟩
  rw [mont, mul_one]

/-! ### Montgomery reduction -/

/-- The quotient u of R107, before the final subtraction. -/
def redcQuotient (m m' t : Nat) : Nat := (t + t * m' % Config.R * m) / Config.R

theorem redc_eq (m m' a b : Nat) :
    redc m m' a b =
      if redcQuotient m m' (a * b) ≥ m then redcQuotient m m' (a * b) - m else redcQuotient m m' (a * b) := rfl

section
variable {m m' : Nat}

/-- Since m · m' is −1 modulo R, the multiple of m added to t cancels it modulo R, and the division is exact. -/
theorem radix_mul_redcQuotient (hm' : (m * m' + 1) % Config.R = 0) (t : Nat) :
    Config.R * redcQuotient m m' t = t + t * m' % Config.R * m := by
  have hinv : m * m' + 1 ≡ 0 [MOD Config.R] := Nat.modEq_zero_iff_dvd.mpr (Nat.dvd_of_mod_eq_zero hm')
  apply Nat.mul_div_cancel'
  apply Nat.modEq_zero_iff_dvd.mp
  calc t + t * m' % Config.R * m ≡ t + t * m' * m [MOD Config.R] := ((Nat.mod_modEq _ _).mul_right m).add_left t
    _ = t * (m * m' + 1) := by ring
    _ ≡ t * 0 [MOD Config.R] := hinv.mul_left t

theorem radix_mul_redcQuotient_modEq (hm' : (m * m' + 1) % Config.R = 0) (t : Nat) :
    Config.R * redcQuotient m m' t ≡ t [MOD m] := by
  rw [radix_mul_redcQuotient hm']
  exact Nat.add_mul_mod_self_right t _ m

/-- Both summands are below R · m. -/
theorem redcQuotient_lt (m' : Nat) (hm : 0 < m) {t : Nat} (ht : t < Config.R * m) : redcQuotient m m' t < 2 * m := by
  have hadded : t * m' % Config.R * m < Config.R * m :=
    Nat.mul_lt_mul_of_pos_right (Nat.mod_lt _ (Nat.two_pow_pos Config.W)) hm
  apply Nat.div_lt_of_lt_mul
  calc t + t * m' % Config.R * m < Config.R * m + Config.R * m := Nat.add_lt_add ht hadded
    _ = Config.R * (2 * m) := by ring

/-- Subtracting m once from a value below 2 · m leaves its residue. -/
theorem redc_eq_mod {a b : Nat} (h : redcQuotient m m' (a * b) < 2 * m) :
    redc m m' a b = redcQuotient m m' (a * b) % m := by
  rw [redc_eq]
  split
  case isTrue hge => rw [Nat.mod_eq_sub_mod hge, Nat.mod_eq_of_lt (by omega)]
  case isFalse hlt => rw [Nat.mod_eq_of_lt (by omega)]

end

/-- Settles O10: the reduction is the residue of its quotient, whose product with R is the plain product. -/
theorem reductionRefinesTheProduct : Obligations.ReductionRefinesTheProduct := by
  intro m m' a b hodd hm hmR _ hm' ha hb
  have hab : a * b < Config.R * m := Nat.mul_lt_mul'' (ha.trans hmR) hb
  have hredc := redc_eq_mod (redcQuotient_lt m' (by omega) hab)
  have hlt : redc m m' a b < m := hredc ▸ Nat.mod_lt _ (by omega)
  have hcongr : Config.R * redc m m' a b ≡ a * b [MOD m] := by
    rw [hredc]
    exact ((Nat.mod_modEq _ m).mul_left _).trans (radix_mul_redcQuotient_modEq hm' (a * b))
  exact ⟨(mont_eq_of_radix_mul_modEq hodd hm hlt hcongr).symm, hlt⟩

end Sys2Proof.Machine
end

section
/-! PROOFS. The Montgomery commands MMUL, FSQR and MR2 (40_field_montgomery.md R104-R106). -/

namespace Sys2Proof.Machine

/-! ### Completion from the outcome of a rule -/

section
variable {s : State} {w : Word} {S : Registers} {k : Nat} {i : Instr}

theorem exec_of_ruleOf_eq_error {e : CommandError} (he : s.engine = .busy w S k) (h : ruleOf i S = .error e) :
    exec i s = .next (s.failed e) := by
  rw [exec_of_busy i he, h, State.complete_error]

theorem exec_of_ruleOf_eq_value {d : Fin 16} {x : Nat} (he : s.engine = .busy w S k)
    (h : ruleOf i S = .ok (.value d (BitVec.ofNat Config.W x))) :
    exec i s = .next (s.finished (s.regs.withValue d x)) := by
  rw [exec_of_busy i he, h, State.complete_ok, State.completeOk_value, Registers.withValue_eq]

end

/-! ### The outcomes of the rules -/

section
variable {S : Registers} {ms : ModSel}

theorem ruleOf_mmul_of_badModulus (d a b : Fin 16) (hbad : S.modulus ms % 2 = 0 ∨ S.modulus ms < 3) :
    ruleOf (.mmul d a b ms) S = .error .badModulus := by
  simp only [ruleOf, ruleMmul, checkOddModulus_eq_error hbad]
  rfl

theorem ruleOf_mmul_of_operandRange (d : Fin 16) {a b : Fin 16} (hmodulus : ¬(S.modulus ms % 2 = 0 ∨ S.modulus ms < 3))
    (hrange : (S.value a).toNat ≥ S.modulus ms ∨ (S.value b).toNat ≥ S.modulus ms) :
    ruleOf (.mmul d a b ms) S = .error .operandRange := by
  simp only [ruleOf, ruleMmul, checkOddModulus_eq_ok.mpr hmodulus]
  by_cases hx : (S.value a).toNat < S.modulus ms
  · have hy := hrange.resolve_left (by omega)
    rw [checkReduced_eq_ok.mpr hx, checkReduced_eq_error hy]
    rfl
  · rw [checkReduced_eq_error (not_lt.mp hx)]
    rfl

/-- FSQR is MMUL with equal sources: the second operand check repeats the first (R105). -/
theorem ruleOf_fsqr_eq_mmul (d a : Fin 16) (ms : ModSel) (S : Registers) :
    ruleOf (.fsqr d a ms) S = ruleOf (.mmul d a a ms) S := by
  simp only [ruleOf, ruleFsqr, ruleMmul]
  cases checkReduced (S.value a).toNat (S.modulus ms) <;> rfl

theorem ruleOf_mr2_of_badModulus (d : Fin 16) (hbad : S.modulus ms % 2 = 0 ∨ S.modulus ms < 3) :
    ruleOf (.mr2 d ms) S = .error .badModulus := by
  simp only [ruleOf, ruleMr2, checkOddModulus_eq_error hbad]
  rfl

end

/-! ### Commands -/

theorem exec_fsqr_eq_mmul (d a : Fin 16) (ms : ModSel) (s : State) : exec (.fsqr d a ms) s = exec (.mmul d a a ms) s := by
  rw [exec_eq_complete, exec_eq_complete, ruleOf_fsqr_eq_mmul]

/-- Settles O20: each clause is an outcome of the rule on the snapshot. -/
theorem mmulMultipliesInMontgomeryForm : Obligations.MmulMultipliesInMontgomeryForm := by
  intro d a b ms s w S k he m x y
  have hm : S.modulus ms = m := by cases ms <;> rfl
  clear_value m
  subst hm
  refine ⟨encode_and_mask (.mmul d a b ms) ⟨.MMUL, 0x00000001, 0xFFE000FF⟩ (by decide) rfl, fun hbad => ?_,
    fun hmodulus hrange => ?_, fun hmodulus hx hy => ?_⟩
  · exact exec_of_ruleOf_eq_error he (ruleOf_mmul_of_badModulus d a b hbad)
  · exact exec_of_ruleOf_eq_error he (ruleOf_mmul_of_operandRange d hmodulus hrange)
  · obtain ⟨hodd, hthree⟩ : S.modulus ms % 2 = 1 ∧ 3 ≤ S.modulus ms := by omega
    exact ⟨montgomeryRinv (S.modulus ms), montgomeryRinv_lt hodd hthree, radix_mul_montgomeryRinv_mod hodd hthree,
      exec_of_ruleOf_eq_value he (ruleOf_mmul d hodd hthree rfl rfl rfl hx hy)⟩

/-- Settles O21: the outcomes are those of MMUL with equal sources. -/
theorem fsqrSquaresInMontgomeryForm : Obligations.FsqrSquaresInMontgomeryForm := by
  intro d a ms s w S k he m x
  obtain ⟨-, hbad, hrange, hvalue⟩ := mmulMultipliesInMontgomeryForm d a a ms s w S k he
  have hmmul := exec_fsqr_eq_mmul d a ms s
  refine ⟨encode_and_mask (.fsqr d a ms) ⟨.FSQR, 0x00000002, 0xFFEF00FF⟩ (by decide) rfl, hmmul,
    fun h => hmmul.trans (hbad h), fun h hx => hmmul.trans (hrange h (.inl hx)), fun h hx => ?_⟩
  rw [hmmul, pow_two]
  exact hvalue h hx hx

/-- Settles O22: the one check of MR2, then its result. -/
theorem mr2WritesTheSquareOfTheRadix : Obligations.Mr2WritesTheSquareOfTheRadix := by
  intro d ms s w S k he m
  have hm : S.modulus ms = m := by cases ms <;> rfl
  clear_value m
  subst hm
  refine ⟨encode_and_mask (.mr2 d ms) ⟨.MR2, 0x00000003, 0xFFEFF0FF⟩ (by decide) rfl, fun hbad => ?_,
    fun hmodulus => ?_⟩
  · exact exec_of_ruleOf_eq_error he (ruleOf_mr2_of_badModulus d hbad)
  · have hrule := ruleOf_mr2 d (ms := ms) (S := S) (by omega) (by omega) rfl
    rw [radix_sq] at hrule
    exact exec_of_ruleOf_eq_value he hrule

end Sys2Proof.Machine
end

section
/-! PROOFS. The contract of `inverseMod` and the command MINV (41_modular_inverse.md R120, R121). -/

namespace Sys2Proof.Machine

/-! ### The contract of the modular inverse -/

/-- Reducing k first keeps its gcd with the modulus. -/
theorem gcd_residue {m : Nat} (hm : 0 < m) (k : Int) : Nat.gcd m (residue k m) = Int.gcd k m := by
  rw [Nat.gcd_comm, ← Int.gcd_natCast_natCast, residue_cast hm, Int.gcd_emod]

theorem inverseMod_eq_divisionByZero {k : Int} {m : Nat} (hm : 0 < m) (hk : k % m = 0) :
    inverseMod k m = .error .divisionByZero :=
  if_pos ((residue_eq_zero_iff hm k).mpr hk)

/-- The loop ends with a gcd other than 1. -/
theorem inverseMod_eq_noInverseExists {k : Int} {m : Nat} (hm : 0 < m) (hk : k % m ≠ 0) (hgcd : Int.gcd k m ≠ 1) :
    inverseMod k m = .error .noInverseExists := by
  have hres : residue k m ≠ 0 := mt (residue_eq_zero_iff hm k).mp hk
  have hloop : (euclid (residue k m) m (residue k m) 0 1).1 ≠ 1 := by
    rwa [euclid_gcd _ _ _ _ _ le_rfl, gcd_residue hm]
  exact (if_neg hres).trans (if_pos hloop)

/-- Settles O7: the remainder 0, a gcd above 1, and the Bézout coefficient of a gcd 1. -/
theorem inverseModMeetsItsContract : Obligations.InverseModMeetsItsContract := by
  intro k m hm
  refine ⟨inverseMod_eq_divisionByZero (by omega), inverseMod_eq_noInverseExists (by omega), fun hgcd => ?_⟩
  obtain ⟨x, hx, hlt, hinv⟩ := inverseMod_of_coprime hm hgcd
  exact ⟨x, hlt, Eq.trans hinv (Int.emod_eq_of_lt (by omega) (by omega)), hx⟩

/-! ### MINV -/

theorem ruleOf_minv_of_badModulus {S : Registers} {ms : ModSel} (d a : Fin 16) (hbad : S.modulus ms < 2) :
    ruleOf (.minv d a ms) S = .error .badModulus :=
  if_pos hbad

/-- Past the modulus check MINV answers what `inverseMod` answers for the operand, reduced or not (R121). -/
theorem ruleOf_minv {S : Registers} {ms : ModSel} (d a : Fin 16) (hm : 2 ≤ S.modulus ms) :
    ruleOf (.minv d a ms) S =
      (inverseMod (S.value a).toNat (S.modulus ms)).map fun x => .value d (BitVec.ofNat Config.W x) := by
  rw [ruleOf, ruleMinv, if_neg (not_lt.mpr hm)]
  cases inverseMod (S.value a).toNat (S.modulus ms) <;> rfl

/-- Settles O23: the modulus check, then the contract of `inverseMod` for the operand. -/
theorem minvWritesTheInverse : Obligations.MinvWritesTheInverse := by
  intro d a ms s w S k he m x
  have hm : S.modulus ms = m := by cases ms <;> rfl
  clear_value m
  subst hm
  have hgcd : Nat.gcd (x % S.modulus ms) (S.modulus ms) = Int.gcd x (S.modulus ms) := by
    rw [← Int.gcd_natCast_natCast, Int.natCast_emod, Int.gcd_emod]
  have hrule (h2 : 2 ≤ S.modulus ms) := ruleOf_minv d a h2
  refine ⟨encode_and_mask (.minv d a ms) ⟨.MINV, 0x00000004, 0xFFEF00FF⟩ (by decide) rfl, fun hbad => ?_,
    fun h2 hx => ?_, fun h2 hx hx1 => ?_, fun h2 hx1 => ?_⟩
  · exact exec_of_ruleOf_eq_error he (ruleOf_minv_of_badModulus d a hbad)
  · have hzero := inverseMod_eq_divisionByZero (k := x) (m := S.modulus ms) (by omega) (mod_cast hx)
    exact exec_of_ruleOf_eq_error he ((hrule h2).trans (congrArg _ hzero))
  · have hnone := inverseMod_eq_noInverseExists (k := x) (m := S.modulus ms) (by omega) (mod_cast hx) (hgcd ▸ hx1)
    exact exec_of_ruleOf_eq_error he ((hrule h2).trans (congrArg _ hnone))
  · obtain ⟨-, -, hsome⟩ := inverseModMeetsItsContract x (S.modulus ms) h2
    obtain ⟨y, hy, hinv, hok⟩ := hsome (hgcd ▸ hx1)
    exact ⟨y, hy, mod_cast hinv, exec_of_ruleOf_eq_value he ((hrule h2).trans (congrArg _ hok))⟩

end Sys2Proof.Machine
end

section
/-! PROOFS. The group law's cases as equations, and the third point of a line as a point of the curve modulo any p
(42_curve_group.md R130, R131, R137). -/

namespace Sys2Proof.Machine

/-! ### Membership -/

@[simp] theorem isOnCurve_identity (c : Curve) : isOnCurve c .identity = true := rfl

theorem isOnCurve_affine_iff (c : Curve) (x y : Nat) :
    isOnCurve c (.affine x y) = true ↔ ((y : Int) * y - x * x * x - c.a * x - c.b) % c.p = 0 :=
  beq_iff_eq

/-- Membership as the curve's equation over the integers modulo p. -/
theorem isOnCurve_affine_iff_zmod (c : Curve) (x y : Nat) :
    isOnCurve c (.affine x y) = true ↔ (y : ZMod c.p) ^ 2 = x ^ 3 + c.a * x + c.b := by
  rw [isOnCurve_affine_iff, ← Int.dvd_iff_emod_eq_zero, ← ZMod.intCast_zmod_eq_zero_iff_dvd]
  push_cast
  constructor
  · intro h
    linear_combination h
  · intro h
    linear_combination h

/-! ### The cases of `addPoint` -/

/-- The divisor of the slope: 2·y of a tangent, the difference of the x coordinates of a chord (R131). -/
def slopeDen (x1 y1 x2 : Nat) : Int := if x1 = x2 then 2 * y1 else (x1 : Int) - x2

/-- The dividend of the slope (R131). -/
def slopeNum (c : Curve) (x1 y1 x2 y2 : Nat) : Int := if x1 = x2 then 3 * x1 * x1 + c.a else (y1 : Int) - y2

theorem lineSlope_eq (c : Curve) (x1 y1 x2 y2 : Nat) :
    lineSlope c x1 y1 x2 y2 =
      (inverseMod (slopeDen x1 y1 x2) c.p).map fun inv => slopeNum c x1 y1 x2 y2 * inv := by
  unfold lineSlope slopeDen slopeNum
  split
  · cases inverseMod (2 * (y1 : Int)) c.p <;> rfl
  · cases inverseMod ((x1 : Int) - x2) c.p <;> rfl

theorem addPoint_eq_invalidPoint {c : Curve} {p q : Point} (h : isOnCurve c p = false ∨ isOnCurve c q = false) :
    addPoint c p q = .error .invalidPoint := by
  unfold addPoint
  split
  · rfl
  · next hp => exact if_pos (h.resolve_left hp)

/-- Only operands on the curve have a sum. -/
theorem isOnCurve_of_addPoint_eq_ok {c : Curve} {p q r : Point} (h : addPoint c p q = .ok r) :
    isOnCurve c p = true ∧ isOnCurve c q = true := by
  by_contra hoff
  rw [not_and_or, Bool.not_eq_true, Bool.not_eq_true] at hoff
  rw [addPoint_eq_invalidPoint hoff] at h
  cases h

theorem addPoint_identity_left {c : Curve} {q : Point} (hq : isOnCurve c q = true) : addPoint c .identity q = .ok q := by
  simp [addPoint, hq]

theorem addPoint_identity_right {c : Curve} {p : Point} (hp : isOnCurve c p = true) : addPoint c p .identity = .ok p := by
  cases p <;> simp [addPoint, hp]

section
variable {c : Curve} {x1 y1 x2 y2 : Nat} (h1 : isOnCurve c (.affine x1 y1) = true)
  (h2 : isOnCurve c (.affine x2 y2) = true)
include h1 h2

theorem addPoint_opposite (hx : x1 = x2) (hy : y1 ≠ y2) : addPoint c (.affine x1 y1) (.affine x2 y2) = .ok .identity := by
  subst hx
  simp [addPoint, h1, h2, hy]

/-- Any other two affine points have the sum their line gives, unless its slope's division raises. -/
theorem addPoint_line (hne : ¬(x1 = x2 ∧ y1 ≠ y2)) :
    addPoint c (.affine x1 y1) (.affine x2 y2) =
      (inverseMod (slopeDen x1 y1 x2) c.p).map fun inv => thirdPoint c (slopeNum c x1 y1 x2 y2 * inv) x1 y1 x2 := by
  simp only [addPoint, h1, h2, Bool.true_eq_false, if_false, if_neg hne, lineSlope_eq]
  cases inverseMod (slopeDen x1 y1 x2) c.p <;> rfl

end

/-! ### The line over the integers modulo p -/

theorem zmod_residue {m : Nat} (hm : 0 < m) (x : Int) : ((residue x m : Nat) : ZMod m) = x := by
  rw [← Int.cast_natCast, residue_cast hm, ZMod.intCast_mod]

/-- What `inverseMod` answers is an inverse. -/
theorem mul_eq_one_of_inverseMod_eq_ok {k : Int} {m inv : Nat} (hm : 2 ≤ m) (h : inverseMod k m = .ok inv) :
    (k : ZMod m) * inv = 1 := by
  obtain ⟨hzero, hnone, hsome⟩ := inverseModMeetsItsContract k m hm
  have hgcd : Int.gcd k m = 1 := by
    by_contra hgcd
    by_cases hk : k % m = 0
    · cases h.symm.trans (hzero hk)
    · cases h.symm.trans (hnone hk hgcd)
  obtain ⟨x, -, hinv, hx⟩ := hsome hgcd
  obtain rfl : inv = x := Except.ok.inj (h.symm.trans hx)
  have hone : k * inv ≡ 1 [ZMOD m] := hinv.trans (Int.emod_eq_of_lt (by omega) (by omega)).symm
  exact_mod_cast (ZMod.intCast_eq_intCast_iff _ _ m).mpr hone

/-- The slope s of two points of the curve: their line passes through both, and s·(y1 + y2) is the quotient of the difference of
the two right sides of the equation by x1 − x2. For a tangent the first equation is 0 = 0 and the second gives the slope. -/
def IsSlope (c : Curve) (s : Int) (x1 y1 x2 y2 : Nat) : Prop :=
  (s : ZMod c.p) * (x1 - x2) = y1 - y2 ∧ (s : ZMod c.p) * (y1 + y2) = x1 ^ 2 + x1 * x2 + x2 ^ 2 + c.a

section
variable {c : Curve} {x1 y1 x2 y2 : Nat}

/-- Dividend times inverse of the divisor is the slope; the chord's second equation is the difference of the two membership
equations, divided by x1 − x2. -/
theorem isSlope_of_inverse {inv : Nat} (h1 : isOnCurve c (.affine x1 y1) = true)
    (h2 : isOnCurve c (.affine x2 y2) = true) (hne : ¬(x1 = x2 ∧ y1 ≠ y2))
    (hinv : ((slopeDen x1 y1 x2 : Int) : ZMod c.p) * inv = 1) :
    IsSlope c (slopeNum c x1 y1 x2 y2 * inv) x1 y1 x2 y2 := by
  unfold IsSlope slopeNum
  unfold slopeDen at hinv
  by_cases hx : x1 = x2
  · obtain rfl : y1 = y2 := by tauto
    subst hx
    simp only [if_true] at hinv ⊢
    push_cast at hinv ⊢
    exact ⟨by ring, by linear_combination (3 * x1 * x1 + c.a : ZMod c.p) * hinv⟩
  · rw [isOnCurve_affine_iff_zmod] at h1 h2
    simp only [if_neg hx] at hinv ⊢
    push_cast at hinv ⊢
    exact ⟨by linear_combination (y1 - y2 : ZMod c.p) * hinv, by
      linear_combination (inv : ZMod c.p) * (h1 - h2) + (x1 ^ 2 + x1 * x2 + x2 ^ 2 + c.a : ZMod c.p) * hinv⟩

/-- The cubic that the line cuts out of the curve has the roots x1 and x2, and so s² − x1 − x2, without any division. -/
theorem isOnCurve_thirdPoint {s : Int} (hp : 2 ≤ c.p) (h1 : isOnCurve c (.affine x1 y1) = true)
    (hs : IsSlope c s x1 y1 x2 y2) : isOnCurve c (thirdPoint c s x1 y1 x2) = true := by
  obtain ⟨hline, hsecant⟩ := hs
  rw [isOnCurve_affine_iff_zmod] at h1
  rw [thirdPoint, isOnCurve_affine_iff_zmod, zmod_residue (by omega), zmod_residue (by omega)]
  push_cast
  linear_combination h1 + ((s : ZMod c.p) ^ 2 - 2 * x1 - x2) * (hsecant - s * hline)

theorem thirdPoint_reduced (hp : 0 < c.p) (s : Int) : (thirdPoint c s x1 y1 x2).reduced c :=
  ⟨residue_lt hp _, residue_lt hp _⟩

end

/-- What a sum can be: O, one of the operands, or the third point of the line of a slope through two affine operands. -/
theorem addPoint_eq_ok_cases {c : Curve} {p q r : Point} (hp : 2 ≤ c.p) (h : addPoint c p q = .ok r) :
    r = .identity ∨ r = p ∨ r = q ∨
      ∃ s x1 y1 x2 y2, p = .affine x1 y1 ∧ IsSlope c s x1 y1 x2 y2 ∧ r = thirdPoint c s x1 y1 x2 := by
  obtain ⟨h1, h2⟩ := isOnCurve_of_addPoint_eq_ok h
  cases p with
  | identity =>
    rw [addPoint_identity_left h2] at h
    exact .inr (.inr (.inl (Except.ok.inj h).symm))
  | affine x1 y1 =>
    cases q with
    | identity =>
      rw [addPoint_identity_right h1] at h
      exact .inr (.inl (Except.ok.inj h).symm)
    | affine x2 y2 =>
      by_cases hne : x1 = x2 ∧ y1 ≠ y2
      · rw [addPoint_opposite h1 h2 hne.1 hne.2] at h
        exact .inl (Except.ok.inj h).symm
      · rw [addPoint_line h1 h2 hne] at h
        cases hinv : inverseMod (slopeDen x1 y1 x2) c.p with
        | error e =>
          rw [hinv] at h
          cases h
        | ok inv =>
          rw [hinv] at h
          exact .inr (.inr (.inr ⟨_, x1, y1, x2, y2, rfl,
            isSlope_of_inverse h1 h2 hne (mul_eq_one_of_inverseMod_eq_ok hp hinv), (Except.ok.inj h).symm⟩))

/-- Settles O12: O and the operands are on the curve, and the third point of a line is. -/
theorem addPointStaysOnTheCurve : Obligations.AddPointStaysOnTheCurve := by
  intro c p q r hp h
  obtain ⟨h1, h2⟩ := isOnCurve_of_addPoint_eq_ok h
  rcases addPoint_eq_ok_cases hp h with rfl | rfl | rfl | ⟨s, x1, y1, x2, y2, rfl, hs, rfl⟩
  · exact ⟨rfl, fun _ _ => trivial⟩
  · exact ⟨h1, fun hr _ => hr⟩
  · exact ⟨h2, fun _ hr => hr⟩
  · exact ⟨isOnCurve_thirdPoint hp h1 hs, fun _ _ => thirdPoint_reduced (by omega) s⟩

end Sys2Proof.Machine
end

section
/-! PROOFS. `addPoint` case by case, its errors, and what an odd or prime modulus rules out (42_curve_group.md R131,
R138-R140). -/

namespace Sys2Proof.Machine

/-! ### The outcomes of a line -/

section
variable {c : Curve} {x1 y1 x2 y2 : Nat} (hp : 2 ≤ c.p) (h1 : isOnCurve c (.affine x1 y1) = true)
  (h2 : isOnCurve c (.affine x2 y2) = true) (hne : ¬(x1 = x2 ∧ y1 ≠ y2))
include hp h1 h2 hne

theorem addPoint_eq_divisionByZero (hden : slopeDen x1 y1 x2 % c.p = 0) :
    addPoint c (.affine x1 y1) (.affine x2 y2) = .error .divisionByZero := by
  rw [addPoint_line h1 h2 hne, inverseMod_eq_divisionByZero (by omega) hden]
  rfl

theorem addPoint_eq_noInverseExists (hden : slopeDen x1 y1 x2 % c.p ≠ 0) (hgcd : Int.gcd (slopeDen x1 y1 x2) c.p ≠ 1) :
    addPoint c (.affine x1 y1) (.affine x2 y2) = .error .noInverseExists := by
  rw [addPoint_line h1 h2 hne, inverseMod_eq_noInverseExists (by omega) hden hgcd]
  rfl

theorem addPoint_eq_thirdPoint (hgcd : Int.gcd (slopeDen x1 y1 x2) c.p = 1) :
    ∃ inv : Nat, inv < c.p ∧ slopeDen x1 y1 x2 * inv % c.p = 1 ∧
      addPoint c (.affine x1 y1) (.affine x2 y2) = .ok (thirdPoint c (slopeNum c x1 y1 x2 y2 * inv) x1 y1 x2) := by
  obtain ⟨-, -, hsome⟩ := inverseModMeetsItsContract (slopeDen x1 y1 x2) c.p hp
  obtain ⟨inv, hlt, hinv, hok⟩ := hsome hgcd
  refine ⟨inv, hlt, hinv, ?_⟩
  rw [addPoint_line h1 h2 hne, hok]
  rfl

end

/-- Settles O11: the membership test, then the cases of `addPoint` in their order. -/
theorem addPointFollowsTheGroupLaw : Obligations.AddPointFollowsTheGroupLaw := by
  intro c hp
  refine ⟨isOnCurve_affine_iff c, rfl, fun p q => addPoint_eq_invalidPoint,
    fun q hq => ⟨addPoint_identity_left hq, addPoint_identity_right hq⟩,
    fun x1 y1 x2 y2 h1 h2 => ⟨addPoint_opposite h1 h2, fun hne => ?_⟩⟩
  exact ⟨addPoint_eq_divisionByZero hp h1 h2 hne, addPoint_eq_noInverseExists hp h1 h2 hne,
    addPoint_eq_thirdPoint hp h1 h2 hne⟩

/-! ### Odd and prime moduli -/

/-- With an odd modulus and reduced coordinates only the tangent in a point with y = 0 divides by zero (R138). -/
theorem slopeDen_emod_eq_zero_iff {m x1 y1 x2 : Nat} (hodd : m % 2 = 1) (hx1 : x1 < m) (hy1 : y1 < m) (hx2 : x2 < m) :
    slopeDen x1 y1 x2 % m = 0 ↔ x1 = x2 ∧ y1 = 0 := by
  rw [← Int.dvd_iff_emod_eq_zero, slopeDen]
  split
  · next hx =>
    have hcoprime : Nat.Coprime m 2 := (Nat.coprime_two_right (n := m)).mpr (Nat.odd_iff.mpr hodd)
    have hdvd : (m : Int) ∣ 2 * y1 ↔ m ∣ y1 := by
      rw [← hcoprime.dvd_mul_left]
      exact_mod_cast Iff.rfl
    rw [hdvd]
    exact ⟨fun h => ⟨hx, Nat.eq_zero_of_dvd_of_lt h hy1⟩, fun h => h.2 ▸ dvd_zero m⟩
  · next hx =>
    refine iff_of_false (fun h => hx ?_) (fun h => hx h.1)
    have := Int.eq_zero_of_abs_lt_dvd h (abs_lt.mpr ⟨by omega, by omega⟩)
    omega

/-- With a prime modulus every divisor but 0 has an inverse (R139). -/
theorem gcd_eq_one_of_prime {m : Nat} (hm : m.Prime) {k : Int} (hk : k % m ≠ 0) : Int.gcd k m = 1 := by
  rw [Ne, ← Int.dvd_iff_emod_eq_zero, Int.natCast_dvd] at hk
  exact ((hm.coprime_iff_not_dvd).mpr hk).symm

/-- Settles O13: O and inverse points need no division, and the divisor of a line is 0 or invertible. -/
theorem primeModulusHasEveryInverse : Obligations.PrimeModulusHasEveryInverse := by
  intro c p q hprime hodd hp hq h1 h2
  cases p with
  | identity => simp [addPoint_identity_left h2]
  | affine x1 y1 =>
    cases q with
    | identity => simp [addPoint_identity_right h1]
    | affine x2 y2 =>
      have hsame : (∃ x, Point.affine x1 y1 = .affine x 0 ∧ Point.affine x2 y2 = .affine x 0) ↔
          x1 = x2 ∧ y1 = 0 ∧ y2 = 0 := by
        constructor
        · rintro ⟨x, ⟨⟩, ⟨⟩⟩
          exact ⟨rfl, rfl, rfl⟩
        · rintro ⟨rfl, rfl, rfl⟩
          exact ⟨x1, rfl, rfl⟩
      have hzero := slopeDen_emod_eq_zero_iff hodd hp.1 hp.2 hq.1
      rw [hsame]
      by_cases hne : x1 = x2 ∧ y1 ≠ y2
      · rw [addPoint_opposite h1 h2 hne.1 hne.2]
        exact ⟨nofun, iff_of_false nofun (by omega)⟩
      · by_cases hden : slopeDen x1 y1 x2 % c.p = 0
        · rw [addPoint_eq_divisionByZero hprime.two_le h1 h2 hne hden]
          exact ⟨nofun, iff_of_true rfl (by omega)⟩
        · obtain ⟨inv, -, -, hok⟩ := addPoint_eq_thirdPoint hprime.two_le h1 h2 hne (gcd_eq_one_of_prime hprime hden)
          rw [hok]
          exact ⟨nofun, iff_of_false nofun (by omega)⟩

/-- The negative of a point of the curve is on it. -/
theorem isOnCurve_negative {c : Curve} {x y : Nat} (hy : y < c.p) (h : isOnCurve c (.affine x y) = true) :
    isOnCurve c (.affine x (c.p - y)) = true := by
  rw [isOnCurve_affine_iff_zmod] at h ⊢
  rw [Nat.cast_sub hy.le, ZMod.natCast_self, zero_sub, neg_sq, h]

/-- Settles O14: a point with y ≠ 0 differs from its negative, since P is odd; with y = 0 it is its own. -/
theorem negativeAndIdentityAreNeutral : Obligations.NegativeAndIdentityAreNeutral := by
  intro c x y hprime hodd hx hy h
  refine ⟨addPoint_identity_right h, fun _ => addPoint_opposite h (isOnCurve_negative hy h) rfl (by omega), ?_⟩
  rintro rfl
  have hreduced : (Point.affine x 0).reduced c := ⟨hx, hy⟩
  obtain ⟨-, hzero⟩ := primeModulusHasEveryInverse c _ _ hprime hodd hreduced hreduced h h
  exact hzero.mpr ⟨x, rfl, rfl⟩

end Sys2Proof.Machine
end

section
/-! PROOFS. The commands PCHK, PADD and PDBL (42_curve_group.md R134-R136, R138). -/

namespace Sys2Proof.Machine

/-! ### The point a pair denotes -/

section
variable {S : Registers} {a : Fin 8}

theorem point_of_flag (h : S.inf.getLsbD a = true) : S.point a = .identity :=
  if_pos h

theorem point_of_not_flag (h : S.inf.getLsbD a = false) :
    S.point a = .affine S.v[pairX a].toNat S.v[pairY a].toNat :=
  if_neg (Bool.eq_false_iff.mp h)

end

/-! ### The outcomes of the rules -/

section
variable {S : Registers}

section
variable (hbad : S.p.toNat % 2 = 0 ∨ S.p.toNat < 3)
include hbad

theorem ruleOf_pchk_of_badModulus (a : Fin 8) : ruleOf (.pchk a) S = .error .badModulus := by
  rw [ruleOf, rulePchk, checkOddModulus_eq_error hbad]
  rfl

theorem ruleOf_padd_of_badModulus (d a b : Fin 8) : ruleOf (.padd d a b) S = .error .badModulus := by
  rw [ruleOf, rulePadd, checkOddModulus_eq_error hbad]
  rfl

end

section
variable {a b : Fin 8} (hmodulus : ¬(S.p.toNat % 2 = 0 ∨ S.p.toNat < 3))
include hmodulus

theorem ruleOf_pchk_of_operandRange (ha : ¬(S.point a).reduced S.curve) :
    ruleOf (.pchk a) S = .error .operandRange := by
  rw [ruleOf, rulePchk, checkOddModulus_eq_ok.mpr hmodulus, loadPoint_eq_error ha]
  rfl

theorem ruleOf_pchk (ha : (S.point a).reduced S.curve) :
    ruleOf (.pchk a) S = .ok (.onCurve (isOnCurve S.curve (S.point a))) := by
  rw [ruleOf, rulePchk, checkOddModulus_eq_ok.mpr hmodulus, loadPoint_eq_ok ha]
  rfl

theorem ruleOf_padd_of_operandRange (d : Fin 8)
    (hrange : ¬(S.point a).reduced S.curve ∨ ¬(S.point b).reduced S.curve) :
    ruleOf (.padd d a b) S = .error .operandRange := by
  rw [ruleOf, rulePadd, checkOddModulus_eq_ok.mpr hmodulus]
  by_cases ha : (S.point a).reduced S.curve
  · rw [loadPoint_eq_ok ha, loadPoint_eq_error (hrange.resolve_left (not_not_intro ha))]
    rfl
  · rw [loadPoint_eq_error ha]
    rfl

/-- Past its checks PADD answers what `addPoint` answers for the two points (R135). -/
theorem ruleOf_padd (d : Fin 8) (ha : (S.point a).reduced S.curve) (hb : (S.point b).reduced S.curve) :
    ruleOf (.padd d a b) S = (addPoint S.curve (S.point a) (S.point b)).map (.point d) := by
  rw [ruleOf, rulePadd, checkOddModulus_eq_ok.mpr hmodulus, loadPoint_eq_ok ha, loadPoint_eq_ok hb]
  change (addPoint S.curve (S.point a) (S.point b) >>= fun r => Except.ok (Commit.point d r)) = _
  cases addPoint S.curve (S.point a) (S.point b) <;> rfl

end

/-- PDBL is PADD with equal sources: the second load repeats the first (R136). -/
theorem ruleOf_pdbl_eq_padd (d a : Fin 8) (S : Registers) : ruleOf (.pdbl d a) S = ruleOf (.padd d a a) S := by
  simp only [ruleOf, rulePdbl, rulePadd]
  cases S.loadPoint a <;> rfl

end

theorem exec_pdbl_eq_padd (d a : Fin 8) (s : State) : exec (.pdbl d a) s = exec (.padd d a a) s := by
  rw [exec_eq_complete, exec_eq_complete, ruleOf_pdbl_eq_padd]

/-! ### Completion of PADD from the outcome of `addPoint` -/

section
variable {s : State} {w : Word} {S : Registers} {k : Nat} {a b : Fin 8} {p q : Point} (d : Fin 8)
  (he : s.engine = .busy w S k) (hmodulus : ¬(S.p.toNat % 2 = 0 ∨ S.p.toNat < 3)) (hpa : S.point a = p)
  (hqb : S.point b = q) (hp : p.reduced S.curve) (hq : q.reduced S.curve)
include he hmodulus hpa hqb hp hq

theorem exec_padd_of_addPoint_eq_error {e : CommandError} (h : addPoint S.curve p q = .error e) :
    exec (.padd d a b) s = .next (s.failed e) := by
  subst hpa hqb
  refine exec_of_ruleOf_eq_error he ?_
  rw [ruleOf_padd hmodulus d hp hq, h]
  rfl

theorem exec_padd_of_addPoint_eq_ok {r : Point} (h : addPoint S.curve p q = .ok r) :
    exec (.padd d a b) s = .next (s.finished (s.regs.writePoint d r)) := by
  subst hpa hqb
  rw [exec_of_busy _ he, ruleOf_padd hmodulus d hp hq, h]
  rfl

end

/-! ### Commands -/

/-- Settles O24: the checks, then OC takes the answer of the membership test. -/
theorem pchkReportsMembership : Obligations.PchkReportsMembership := by
  intro a s w S k he x y P bad
  have hcommit {o : Bool} (h : ruleOf (.pchk a) S = .ok (.onCurve o)) :
      exec (.pchk a) s = .next { s.finished s.regs with oc := o } := by
    rw [exec_of_busy _ he, h]
    rfl
  refine ⟨encode_and_mask (.pchk a) ⟨.PCHK, 0x00000013, 0xFFFF8FFF⟩ (by decide) rfl, fun hbad => ?_,
    fun hmodulus hflag => ?_, fun hmodulus hflag hrange => ?_, fun hmodulus hflag hx hy => ?_⟩
  · exact exec_of_ruleOf_eq_error he (ruleOf_pchk_of_badModulus hbad a)
  · have hpoint := point_of_flag hflag
    refine hcommit ((ruleOf_pchk hmodulus ?_).trans ?_)
    · rw [hpoint]
      trivial
    · rw [hpoint, isOnCurve_identity]
  · refine exec_of_ruleOf_eq_error he (ruleOf_pchk_of_operandRange hmodulus fun hreduced => ?_)
    rw [point_of_not_flag hflag] at hreduced
    exact hrange.elim (not_le.mpr hreduced.1) (not_le.mpr hreduced.2)
  · have hpoint := point_of_not_flag hflag
    refine hcommit ((ruleOf_pchk hmodulus ?_).trans ?_)
    · rw [hpoint]
      exact ⟨hx, hy⟩
    · rw [hpoint]
      rfl

/-- Settles O25: the checks, then each case of `addPoint`. -/
theorem paddAddsPoints : Obligations.PaddAddsPoints := by
  intro d a b s w S k he P bad p q
  refine ⟨encode_and_mask (.padd d a b) ⟨.PADD, 0x00000010, 0xFFF888FF⟩ (by decide) rfl,
    fun hbad => exec_of_ruleOf_eq_error he (ruleOf_padd_of_badModulus hbad d a b),
    fun hmodulus hrange => exec_of_ruleOf_eq_error he (ruleOf_padd_of_operandRange hmodulus d hrange),
    fun hmodulus hp hq => ?_⟩
  have hpa : S.point a = p := rfl
  have hqb : S.point b = q := rfl
  clear_value p q
  have hcurve : 2 ≤ S.curve.p := Nat.le_of_succ_le (not_lt.mp fun h => hmodulus (.inr h))
  have hfail {e : CommandError} := exec_padd_of_addPoint_eq_error (e := e) d he hmodulus hpa hqb hp hq
  have hwrite {r : Point} := exec_padd_of_addPoint_eq_ok (r := r) d he hmodulus hpa hqb hp hq
  refine ⟨fun hoff => hfail (addPoint_eq_invalidPoint hoff), fun h1 h2 => ⟨?_, ?_, ?_⟩⟩
  · rintro rfl
    exact hwrite (addPoint_identity_left h2)
  · rintro rfl
    exact hwrite (addPoint_identity_right h1)
  · rintro x1 y1 x2 y2 rfl rfl
    refine ⟨fun hx hy => hwrite (addPoint_opposite h1 h2 hx hy), fun hne =>
      ⟨fun hden => hfail (addPoint_eq_divisionByZero hcurve h1 h2 hne hden),
        fun hden hgcd => hfail (addPoint_eq_noInverseExists hcurve h1 h2 hne hden hgcd), fun hgcd => ?_⟩⟩
    obtain ⟨inv, hlt, hinv, hok⟩ := addPoint_eq_thirdPoint hcurve h1 h2 hne hgcd
    exact ⟨inv, hlt, hinv, hwrite hok⟩

/-- Settles O26: the outcomes are those of PADD with equal sources, whose divisor is 2·y. -/
theorem pdblDoublesPoints : Obligations.PdblDoublesPoints := by
  intro d a s w S k he P bad
  have hpadd := exec_pdbl_eq_padd d a s
  obtain ⟨-, hbad, hrange, hpoints⟩ := paddAddsPoints d a a s w S k he
  refine ⟨encode_and_mask (.pdbl d a) ⟨.PDBL, 0x00000011, 0xFFFF88FF⟩ (by decide) rfl, hpadd, ?_⟩
  rw [hpadd]
  refine ⟨hbad, fun hmodulus hO => ?_, fun hmodulus x y hpoint => ?_⟩
  · rw [hO] at hpoints
    obtain ⟨-, hsum⟩ := hpoints hmodulus trivial trivial
    obtain ⟨hidentity, -, -⟩ := hsum rfl rfl
    exact hidentity rfl
  · rw [hpoint] at hrange hpoints
    have hline (hx : x < P) (hy : y < P) (hon : isOnCurve S.curve (.affine x y) = true) := by
      obtain ⟨-, hsum⟩ := hpoints hmodulus ⟨hx, hy⟩ ⟨hx, hy⟩
      obtain ⟨-, -, hcases⟩ := hsum hon hon
      obtain ⟨-, hline⟩ := hcases x y x y rfl rfl
      simpa only [if_true] using hline fun h => h.2 rfl
    have hgcd : Int.gcd (2 * y) P = Nat.gcd (2 * y) P := Int.gcd_natCast_natCast (2 * y) P
    have hden (hy : y < P) : (2 * y : Int) % P = 0 ↔ y = 0 := by
      simpa [slopeDen] using slopeDen_emod_eq_zero_iff (x1 := 0) (x2 := 0) (by omega) (by omega) hy (by omega)
    refine ⟨fun hlarge => hrange hmodulus (.inl fun hreduced => ?_), fun hx hy hoff => ?_, fun hx hy hon hzero => ?_,
      fun hx hy hon hne hshared => ?_, fun hx hy hon hcoprime => ?_⟩
    · exact hlarge.elim (not_le.mpr hreduced.1) (not_le.mpr hreduced.2)
    · obtain ⟨hinvalid, -⟩ := hpoints hmodulus ⟨hx, hy⟩ ⟨hx, hy⟩
      exact hinvalid (.inl hoff)
    · obtain ⟨hdivision, -, -⟩ := hline hx hy hon
      exact hdivision ((hden hy).mpr hzero)
    · obtain ⟨-, hmissing, -⟩ := hline hx hy hon
      exact hmissing (mt (hden hy).mp hne) (hgcd ▸ hshared)
    · obtain ⟨-, -, htangent⟩ := hline hx hy hon
      obtain ⟨inv, hlt, hinv, hexec⟩ := htangent (hgcd ▸ hcoprime)
      exact ⟨inv, hlt, mod_cast hinv, hexec⟩

/-- Settles O27: PDBL divides by 2·0. -/
theorem doublingAnOrderTwoPointFails : Obligations.DoublingAnOrderTwoPointFails := by
  intro d a s w S k x he hodd hthree hx hpoint hon
  obtain ⟨-, hpadd, -, -, hdouble⟩ := pdblDoublesPoints d a s w S k he
  obtain ⟨-, -, hzero, -, -⟩ := hdouble (by omega) x 0 hpoint
  have hpdbl := hzero hx (by omega) hon rfl
  exact ⟨hpdbl, hpadd ▸ hpdbl⟩

end Sys2Proof.Machine
end

section
/-! PROOFS. The loop of double-and-add: its iteration, the rule of its invariants and its run over the bits of the scalar
(43_scalar_multiply.md R150, R153, R154). -/

namespace Sys2Proof.Machine

/-! ### The shortcut -/

theorem scalarMultiply_shortcut {c : Curve} {order n : Nat} {pt : Point} (h : n % order = 0 ∨ pt = .identity) :
    scalarMultiply c order n pt = .ok .identity :=
  if_pos h

theorem scalarMultiply_eq_doubleAndAdd {c : Curve} {order n : Nat} {pt : Point} (hn : n % order ≠ 0)
    (hpt : pt ≠ .identity) : scalarMultiply c order n pt = doubleAndAdd c (bitlen n) n .identity pt :=
  if_neg (not_or.mpr ⟨hn, hpt⟩)

theorem ne_zero_of_mod_ne_zero {n order : Nat} (h : n % order ≠ 0) : n ≠ 0 := by
  rintro rfl
  exact h (Nat.zero_mod order)

/-! ### One iteration -/

/-- A bind in `Except` fails with the first part's error, or past it with the second's. -/
theorem bind_eq_error {α β : Type} {x : Except CommandError α} {f : α → Except CommandError β} {e : CommandError} :
    (x >>= f) = .error e ↔ x = .error e ∨ ∃ a, x = .ok a ∧ f a = .error e := by
  cases x <;> simp [bind, Except.bind]

/-- An iteration ends when the sum for a set bit and the doubling do. -/
theorem doubleAndAddStep_eq_ok_iff {c : Curve} {k : Nat} {acc addend acc' addend' : Point} :
    doubleAndAddStep c k acc addend = .ok (acc', addend') ↔
      (k % 2 = 1 → addPoint c acc addend = .ok acc') ∧ (k % 2 ≠ 1 → acc' = acc) ∧
        addPoint c addend addend = .ok addend' := by
  by_cases hbit : k % 2 = 1
  · simp [doubleAndAddStep, hbit, bind_eq_ok]
  · simp [doubleAndAddStep, hbit, bind_eq_ok, eq_comm (a := acc'), and_comm]

/-- An iteration's error is that of the sum for a set bit, or else that of the doubling. -/
theorem doubleAndAddStep_eq_error_iff {c : Curve} {k : Nat} {acc addend : Point} {e : CommandError} :
    doubleAndAddStep c k acc addend = .error e ↔
      (k % 2 = 1 ∧ addPoint c acc addend = .error e) ∨
        ((k % 2 = 1 → ∃ r, addPoint c acc addend = .ok r) ∧ addPoint c addend addend = .error e) := by
  by_cases hbit : k % 2 = 1
  · simp [doubleAndAddStep, hbit, bind_eq_error]
  · simp [doubleAndAddStep, hbit, bind_eq_error]

section
variable {c : Curve} {k : Nat} {acc addend : Point} (hk : k ≠ 0)
include hk

theorem doubleAndAdd_of_step_eq_ok {acc' addend' : Point}
    (h : doubleAndAddStep c k acc addend = .ok (acc', addend')) :
    doubleAndAdd c (bitlen k) k acc addend = doubleAndAdd c (bitlen (k / 2)) (k / 2) acc' addend' := by
  rw [doubleAndAdd_step c hk, h]
  rfl

/-- The first error ends the loop. -/
theorem doubleAndAdd_of_step_eq_error {e : CommandError} (h : doubleAndAddStep c k acc addend = .error e) :
    doubleAndAdd c (bitlen k) k acc addend = .error e := by
  rw [doubleAndAdd_step c hk, h]
  rfl

end

/-! ### Invariants -/

/-- The rule of the loop: an invariant of (k, acc, addend) that every iteration keeps carries the claim about the outcome from
an iteration's error, or from the accumulator at k = 0. -/
theorem doubleAndAdd_invariant {c : Curve} {Inv : Nat → Point → Point → Prop} {Post : Except CommandError Point → Prop}
    (step : ∀ k acc addend acc' addend', k ≠ 0 → Inv k acc addend →
      doubleAndAddStep c k acc addend = .ok (acc', addend') → Inv (k / 2) acc' addend')
    (error : ∀ k acc addend e, Inv k acc addend → doubleAndAddStep c k acc addend = .error e → Post (.error e))
    (done : ∀ acc addend, Inv 0 acc addend → Post (.ok acc))
    {k : Nat} {acc addend : Point} (h : Inv k acc addend) : Post (doubleAndAdd c (bitlen k) k acc addend) := by
  induction k using Nat.strong_induction_on generalizing acc addend with
  | _ k ih =>
    by_cases hk : k = 0
    · subst hk
      rw [doubleAndAdd_zero]
      exact done acc addend h
    · cases hstep : doubleAndAddStep c k acc addend with
      | error e =>
        rw [doubleAndAdd_of_step_eq_error hk hstep]
        exact error k acc addend e h hstep
      | ok r =>
        rw [doubleAndAdd_of_step_eq_ok hk hstep]
        exact ih (k / 2) (by omega) (step k acc addend r.1 r.2 hk h hstep)

/-! ### InvalidPoint -/

theorem inverseMod_ne_invalidPoint (k : Int) (m : Nat) : inverseMod k m ≠ .error .invalidPoint := by
  simp only [inverseMod]
  split
  · nofun
  · split <;> nofun

/-- Past its two membership tests `addPoint` does not raise InvalidPoint. -/
theorem addPoint_eq_invalidPoint_iff {c : Curve} {p q : Point} :
    addPoint c p q = .error .invalidPoint ↔ isOnCurve c p = false ∨ isOnCurve c q = false := by
  refine ⟨fun h => ?_, addPoint_eq_invalidPoint⟩
  by_contra hon
  simp only [not_or, Bool.not_eq_false] at hon
  obtain ⟨h1, h2⟩ := hon
  cases p with
  | identity => simp [addPoint_identity_left h2] at h
  | affine x1 y1 =>
    cases q with
    | identity => simp [addPoint_identity_right h1] at h
    | affine x2 y2 =>
      by_cases hne : x1 = x2 ∧ y1 ≠ y2
      · simp [addPoint_opposite h1 h2 hne.1 hne.2] at h
      · rw [addPoint_line h1 h2 hne] at h
        cases hinv : inverseMod (slopeDen x1 y1 x2) c.p with
        | error e =>
          rw [hinv] at h
          exact inverseMod_ne_invalidPoint _ _ (hinv.trans (congrArg _ (Except.error.inj h)))
        | ok inv =>
          rw [hinv] at h
          cases h

/-- The first iteration passes the operand point to `addPoint`, with a set bit or without (R153). -/
theorem doubleAndAdd_eq_invalidPoint {c : Curve} {k : Nat} {acc addend : Point} (hk : k ≠ 0)
    (h : isOnCurve c addend = false) : doubleAndAdd c (bitlen k) k acc addend = .error .invalidPoint := by
  apply doubleAndAdd_of_step_eq_error hk
  rw [doubleAndAddStep_eq_error_iff, addPoint_eq_invalidPoint_iff, addPoint_eq_invalidPoint_iff]
  by_cases hbit : k % 2 = 1
  · exact .inl ⟨hbit, .inr h⟩
  · exact .inr ⟨fun hset => absurd hset hbit, .inl h⟩

/-- The loop's invariant for R153: both points are on the curve. -/
def LoopOnCurve (c : Curve) (_ : Nat) (acc addend : Point) : Prop :=
  isOnCurve c acc = true ∧ isOnCurve c addend = true

/-- From points of the curve the loop only reaches points of the curve. -/
theorem doubleAndAdd_ne_invalidPoint {c : Curve} {k : Nat} {acc addend : Point} (hp : 2 ≤ c.p)
    (hacc : isOnCurve c acc = true) (haddend : isOnCurve c addend = true) :
    doubleAndAdd c (bitlen k) k acc addend ≠ .error .invalidPoint := by
  have hsum {p q r : Point} (h : addPoint c p q = .ok r) : isOnCurve c r = true :=
    (addPointStaysOnTheCurve c p q r hp h).1
  refine doubleAndAdd_invariant (Inv := LoopOnCurve c) (Post := (· ≠ .error .invalidPoint)) ?step ?error
    (fun _ _ _ => nofun) ⟨hacc, haddend⟩
  case step =>
    rintro k acc addend acc' addend' - ⟨hacc, _⟩ hstep
    obtain ⟨hset, hclear, hdouble⟩ := doubleAndAddStep_eq_ok_iff.mp hstep
    refine ⟨?_, hsum hdouble⟩
    by_cases hbit : k % 2 = 1
    · exact hsum (hset hbit)
    · rwa [hclear hbit]
  case error =>
    rintro k acc addend e ⟨h1, h2⟩ hstep he
    obtain rfl := Except.error.inj he
    rw [doubleAndAddStep_eq_error_iff, addPoint_eq_invalidPoint_iff, addPoint_eq_invalidPoint_iff] at hstep
    simp [h1, h2] at hstep

/-- Settles O15: the shortcut comes first, and then only the operand point can be off the curve. -/
theorem invalidPointExactlyWhenOffTheCurve : Obligations.InvalidPointExactlyWhenOffTheCurve := by
  intro c order n pt hp _ _
  by_cases hshort : n % order = 0 ∨ pt = .identity
  · rw [scalarMultiply_shortcut hshort]
    exact iff_of_false nofun fun ⟨hpt, _, hn⟩ => hshort.elim hn hpt
  · obtain ⟨hn, hpt⟩ := not_or.mp hshort
    rw [scalarMultiply_eq_doubleAndAdd hn hpt]
    cases hon : isOnCurve c pt with
    | false => exact iff_of_true (doubleAndAdd_eq_invalidPoint (ne_zero_of_mod_ne_zero hn) hon) ⟨hpt, rfl, hn⟩
    | true => exact iff_of_false (doubleAndAdd_ne_invalidPoint (by omega) rfl hon) (by simp)

/-! ### The last doubling -/

/-- Settles O16: the sum for the one bit of the scalar is the point, and the doubling after it divides by 2·0. -/
theorem lastDoublingOfAnOrderTwoPointFails : Obligations.LastDoublingOfAnOrderTwoPointFails := by
  intro c order x hp _ horder hon
  have hsum := addPoint_identity_left hon
  have hdouble : addPoint c (.affine x 0) (.affine x 0) = .error .divisionByZero :=
    addPoint_eq_divisionByZero (by omega) hon hon (by simp) (by simp [slopeDen])
  have hone : 1 % order ≠ 0 := by
    rw [Nat.mod_eq_of_lt horder]
    exact one_ne_zero
  refine ⟨?_, hsum⟩
  rw [scalarMultiply_eq_doubleAndAdd hone (by simp)]
  exact doubleAndAdd_of_step_eq_error one_ne_zero
    (doubleAndAddStep_eq_error_iff.mpr (.inr ⟨fun _ => ⟨_, hsum⟩, hdouble⟩))

/-! ### The bits of the scalar -/

theorem lt_bitlen_iff {i n : Nat} : i < bitlen n ↔ n / 2 ^ i ≠ 0 := by
  rw [Ne, Nat.div_eq_zero_iff_lt (Nat.two_pow_pos i)]
  unfold bitlen
  split
  case isTrue hn => simp [hn]
  case isFalse hn =>
    rw [← Nat.log2_lt hn]
    omega

/-- The sequences acc and addend follow the loop over the bits of n below j (R150). -/
def FollowsLoop (c : Curve) (n : Nat) (acc addend : Nat → Point) (j : Nat) : Prop :=
  ∀ i < j, addPoint c (addend i) (addend i) = .ok (addend (i + 1)) ∧
    (n.testBit i = true → addPoint c (acc i) (addend i) = .ok (acc (i + 1))) ∧
    (n.testBit i = false → acc (i + 1) = acc i)

/-- After j iterations the loop has the j-th points, and the bits of n from j upward are still to come. -/
theorem doubleAndAdd_of_followsLoop {c : Curve} {n j : Nat} {acc addend : Nat → Point} (hj : j ≤ bitlen n)
    (h : FollowsLoop c n acc addend j) :
    doubleAndAdd c (bitlen n) n (acc 0) (addend 0) =
      doubleAndAdd c (bitlen (n / 2 ^ j)) (n / 2 ^ j) (acc j) (addend j) := by
  induction j with
  | zero => simp
  | succ j ih =>
    obtain ⟨hdouble, hset, hclear⟩ := h j (by omega)
    simp only [Nat.testBit_eq_decide_div_mod_eq, decide_eq_true_eq, decide_eq_false_iff_not] at hset hclear
    have hstep := doubleAndAddStep_eq_ok_iff.mpr ⟨hset, hclear, hdouble⟩
    rw [ih (by omega) fun i hi => h i (by omega), doubleAndAdd_of_step_eq_ok (lt_bitlen_iff.mp hj) hstep,
      Nat.div_div_eq_div_mul, ← pow_succ]

end Sys2Proof.Machine
end

section
/-! PROOFS. `addPoint` and the scalar multiplication against Mathlib's group of the Weierstrass curve (42_curve_group.md R131,
43_scalar_multiply.md R155, R156). -/

namespace Sys2Proof.Machine

/-! ### The curve over the integers modulo p -/

@[simp] theorem weierstrass_negY (c : Curve) (x y : ZMod c.p) : c.weierstrass.negY x y = -y := by
  simp [WeierstrassCurve.Affine.negY, Curve.weierstrass]

theorem weierstrass_addX (c : Curve) (x1 x2 s : ZMod c.p) : c.weierstrass.addX x1 x2 s = s ^ 2 - x1 - x2 := by
  simp [WeierstrassCurve.Affine.addX, Curve.weierstrass]

theorem weierstrass_addY (c : Curve) (x1 x2 y1 s : ZMod c.p) :
    c.weierstrass.addY x1 x2 y1 s = -(s * (c.weierstrass.addX x1 x2 s - x1) + y1) := by
  rw [WeierstrassCurve.Affine.addY, weierstrass_negY, WeierstrassCurve.Affine.negAddY]

/-- A reduced coordinate is known by its residue class. -/
theorem eq_of_natCast_eq {m x y : Nat} (hx : x < m) (hy : y < m) (h : (x : ZMod m) = y) : x = y :=
  CharP.natCast_injOn_Iio (ZMod m) m hx hy h

/-! ### Points that represent group elements -/

theorem represents_identity (c : Curve) : Represents c .identity 0 := rfl

theorem represents_affine {c : Curve} {x y : Nat} {X Y : ZMod c.p} {h : c.weierstrass.Nonsingular X Y} (hx : x < c.p)
    (hy : y < c.p) (hX : (x : ZMod c.p) = X) (hY : (y : ZMod c.p) = Y) : Represents c (.affine x y) (.some X Y h) := by
  subst hX hY
  exact ⟨hx, hy, h, rfl⟩

/-- Only one point represents a group element. -/
theorem represents_unique {c : Curve} {p q : Point} {g : c.weierstrass.Point} (hp : Represents c p g)
    (hq : Represents c q g) : p = q := by
  cases p with
  | identity =>
    cases q with
    | identity => rfl
    | affine x2 y2 =>
      obtain ⟨-, -, _, rfl⟩ := hq
      cases hp
  | affine x1 y1 =>
    obtain ⟨hx1, hy1, _, rfl⟩ := hp
    cases q with
    | identity => cases hq
    | affine x2 y2 =>
      obtain ⟨hx2, hy2, _, heq⟩ := hq
      obtain ⟨hX, hY⟩ := WeierstrassCurve.Affine.Point.some.inj heq
      rw [eq_of_natCast_eq hx1 hx2 hX, eq_of_natCast_eq hy1 hy2 hY]

/-! ### Addition -/

section
variable {c : Curve} [Fact c.p.Prime] {x1 y1 x2 y2 : Nat}

/-- Points with equal x and different y are negatives of each other. -/
theorem add_eq_zero_of_opposite (hx : x1 = x2) (hy : y1 ≠ y2) (hy1 : y1 < c.p) (hy2 : y2 < c.p)
    (h1 : c.weierstrass.Nonsingular x1 y1) (h2 : c.weierstrass.Nonsingular x2 y2) :
    (.some _ _ h1 + .some _ _ h2 : c.weierstrass.Point) = 0 := by
  have hX : (x1 : ZMod c.p) = x2 := congrArg _ hx
  rcases WeierstrassCurve.Affine.Y_eq_of_X_eq h1.left h2.left hX with hY | hY
  · exact absurd (eq_of_natCast_eq hy1 hy2 hY) hy
  · exact WeierstrassCurve.Affine.Point.add_of_Y_eq hX hY

section
variable {inv : Nat} (hne : ¬(x1 = x2 ∧ y1 ≠ y2)) (hinv : ((slopeDen x1 y1 x2 : Int) : ZMod c.p) * inv = 1)
include hne hinv

/-- Where the slope's divisor is invertible the points are no negatives of each other. -/
theorem not_opposite_of_inverse : ¬((x1 : ZMod c.p) = x2 ∧ (y1 : ZMod c.p) = c.weierstrass.negY x2 y2) := by
  rintro ⟨hX, hY⟩
  rw [weierstrass_negY] at hY
  unfold slopeDen at hinv
  apply one_ne_zero (α := ZMod c.p)
  by_cases hx : x1 = x2
  · obtain rfl : y1 = y2 := by tauto
    rw [if_pos hx] at hinv
    push_cast at hinv
    linear_combination inv * hY - hinv
  · rw [if_neg hx] at hinv
    push_cast at hinv
    linear_combination inv * hX - hinv

/-- Dividend times inverse of the divisor is Mathlib's slope. -/
theorem slope_eq_of_inverse :
    c.weierstrass.slope (x1 : ZMod c.p) x2 y1 y2 = ((slopeNum c x1 y1 x2 y2 * inv : Int) : ZMod c.p) := by
  have hopposite := not_opposite_of_inverse hne hinv
  unfold slopeDen at hinv
  unfold slopeNum
  by_cases hx : x1 = x2
  · obtain rfl : y1 = y2 := by tauto
    subst hx
    have hY := fun h => hopposite ⟨rfl, h⟩
    rw [WeierstrassCurve.Affine.slope_of_Y_ne rfl hY, div_eq_iff (sub_ne_zero.mpr hY), weierstrass_negY]
    simp only [if_true, Curve.weierstrass] at hinv ⊢
    push_cast at hinv ⊢
    linear_combination -(3 * x1 * x1 + c.a : ZMod c.p) * hinv
  · simp only [if_neg hx] at hinv ⊢
    push_cast at hinv ⊢
    have hX : (x1 : ZMod c.p) - x2 ≠ 0 := left_ne_zero_of_mul_eq_one hinv
    rw [WeierstrassCurve.Affine.slope_of_X_ne (sub_ne_zero.mp hX), div_eq_iff hX]
    linear_combination -(y1 - y2 : ZMod c.p) * hinv

/-- The third point of the line, mirrored, is Mathlib's sum. -/
theorem represents_thirdPoint (h1 : c.weierstrass.Nonsingular x1 y1) (h2 : c.weierstrass.Nonsingular x2 y2) :
    Represents c (thirdPoint c (slopeNum c x1 y1 x2 y2 * inv) x1 y1 x2) (.some _ _ h1 + .some _ _ h2) := by
  have hp : 0 < c.p := (Fact.out : c.p.Prime).pos
  rw [WeierstrassCurve.Affine.Point.add_some (not_opposite_of_inverse hne hinv)]
  apply represents_affine (residue_lt hp _) (residue_lt hp _)
  · rw [zmod_residue hp, weierstrass_addX, slope_eq_of_inverse hne hinv]
    push_cast
    ring
  · rw [zmod_residue hp, weierstrass_addY, weierstrass_addX, slope_eq_of_inverse hne hinv]
    push_cast
    ring

end

/-- A sum that `addPoint` returns stands for the sum in the group. -/
theorem represents_add {p q r : Point} {g h : c.weierstrass.Point} (hp : Represents c p g) (hq : Represents c q h)
    (hsum : addPoint c p q = .ok r) : Represents c r (g + h) := by
  obtain ⟨on1, on2⟩ := isOnCurve_of_addPoint_eq_ok hsum
  cases p with
  | identity =>
    obtain rfl : g = 0 := hp
    rw [addPoint_identity_left on2] at hsum
    obtain rfl := Except.ok.inj hsum
    rwa [zero_add]
  | affine x1 y1 =>
    cases q with
    | identity =>
      obtain rfl : h = 0 := hq
      rw [addPoint_identity_right on1] at hsum
      obtain rfl := Except.ok.inj hsum
      rwa [add_zero]
    | affine x2 y2 =>
      obtain ⟨-, hy1, h1, rfl⟩ := hp
      obtain ⟨-, hy2, h2, rfl⟩ := hq
      by_cases hne : x1 = x2 ∧ y1 ≠ y2
      · obtain ⟨hx, hy⟩ := hne
        rw [addPoint_opposite on1 on2 hx hy] at hsum
        obtain rfl := Except.ok.inj hsum
        rw [add_eq_zero_of_opposite hx hy hy1 hy2]
        exact represents_identity c
      · rw [addPoint_line on1 on2 hne] at hsum
        cases hinv : inverseMod (slopeDen x1 y1 x2) c.p with
        | error e =>
          rw [hinv] at hsum
          cases hsum
        | ok inv =>
          rw [hinv] at hsum
          obtain rfl := Except.ok.inj hsum
          have hprime : c.p.Prime := Fact.out
          exact represents_thirdPoint hne (mul_eq_one_of_inverseMod_eq_ok hprime.two_le hinv) h1 h2

end

/-! ### Multiples -/

section
variable {c : Curve} [Fact c.p.Prime]

/-- The loop's invariant for R155: acc and addend represent group elements with acc + k • addend the total. -/
def LoopTotal (total : c.weierstrass.Point) (k : Nat) (acc addend : Point) : Prop :=
  ∃ a g, Represents c acc a ∧ Represents c addend g ∧ a + k • g = total

/-- The loop adds k times the addend to the accumulator: every iteration keeps acc + k • addend. -/
theorem represents_doubleAndAdd {k : Nat} {acc addend r : Point} {a g : c.weierstrass.Point}
    (hacc : Represents c acc a) (haddend : Represents c addend g)
    (h : doubleAndAdd c (bitlen k) k acc addend = .ok r) : Represents c r (a + k • g) := by
  refine doubleAndAdd_invariant (Inv := LoopTotal (a + k • g))
    (Post := fun x => ∀ r, x = .ok r → Represents c r (a + k • g)) ?step (fun _ _ _ _ _ _ => nofun) ?done
    ⟨a, g, hacc, haddend, rfl⟩ r h
  case step =>
    rintro k' acc addend acc' addend' - ⟨a', g', ha, hg, htotal⟩ hstep
    obtain ⟨hset, hclear, hdouble⟩ := doubleAndAddStep_eq_ok_iff.mp hstep
    have hg2 := represents_add hg hg hdouble
    by_cases hbit : k' % 2 = 1
    · refine ⟨_, _, represents_add ha hg (hset hbit), hg2, ?_⟩
      rw [← htotal, ← two_nsmul, ← mul_nsmul', add_assoc, ← succ_nsmul',
        show k' / 2 * 2 + 1 = k' by omega]
    · rw [hclear hbit]
      refine ⟨_, _, ha, hg2, ?_⟩
      rw [← htotal, ← two_nsmul, ← mul_nsmul', show k' / 2 * 2 = k' by omega]
  case done =>
    rintro acc addend ⟨a', g', ha, -, htotal⟩ r hr
    obtain rfl := Except.ok.inj hr
    rwa [← htotal, zero_nsmul, add_zero]

/-- Past the test of n mod N a result is the multiple; for the operand O the shortcut's O is it (R155). -/
theorem represents_scalarMultiply {order n : Nat} {pt r : Point} {g : c.weierstrass.Point} (hg : Represents c pt g)
    (hn : n % order ≠ 0) (h : scalarMultiply c order n pt = .ok r) : Represents c r (n • g) := by
  by_cases hpt : pt = .identity
  · subst hpt
    obtain rfl : g = 0 := hg
    rw [scalarMultiply_shortcut (.inr rfl)] at h
    obtain rfl := Except.ok.inj h
    rw [nsmul_zero]
    exact represents_identity c
  · rw [scalarMultiply_eq_doubleAndAdd hn hpt] at h
    simpa using represents_doubleAndAdd (represents_identity c) hg h

/-- With an order N that annihilates the point, the shortcut's O is the multiple too. -/
theorem represents_scalarMultiply_of_order {order n : Nat} {pt r : Point} {g : c.weierstrass.Point}
    (hg : Represents c pt g) (horder : order • g = 0) (h : scalarMultiply c order n pt = .ok r) :
    Represents c r (n • g) := by
  by_cases hn : n % order = 0
  · rw [scalarMultiply_shortcut (.inl hn)] at h
    obtain rfl := Except.ok.inj h
    obtain ⟨t, rfl⟩ := Nat.dvd_of_mod_eq_zero hn
    rw [mul_nsmul, horder, nsmul_zero]
    exact represents_identity c
  · exact represents_scalarMultiply hg hn h

end

/-- Settles O17: the loop keeps acc + k • addend, and the shortcut answers O. -/
theorem scalarMultiplyIsTheGroupMultiple : Obligations.ScalarMultiplyIsTheGroupMultiple := by
  intro c _ _ _ order n pt r g _ hg h
  refine ⟨fun hn => represents_scalarMultiply hg hn h, fun hn => ?_⟩
  rw [scalarMultiply_shortcut (.inl hn)] at h
  exact (Except.ok.inj h).symm

/-- Settles O18: all three results represent (n · m) • g, which only one point does. -/
theorem scalarsMultiplyAlongTheOrder : Obligations.ScalarsMultiplyAlongTheOrder := by
  intro c _ _ _ order n m pt nq mq u v w g _ haddOrder hg hmq hu hv hnq hw
  have horder : order • g = 0 := haddOrder ▸ addOrderOf_nsmul_eq_zero g
  have horderMul (k : Nat) : order • k • g = 0 := by rw [nsmul_left_comm, horder, nsmul_zero]
  have hmqRep := represents_scalarMultiply_of_order hg horder hmq
  have hnqRep := represents_scalarMultiply_of_order hg horder hnq
  have huRep := represents_scalarMultiply_of_order hmqRep (horderMul m) hu
  have hvRep := represents_scalarMultiply_of_order hg horder hv
  have hwRep := represents_scalarMultiply_of_order hnqRep (horderMul n) hw
  rw [← haddOrder, mod_addOrderOf_nsmul, mul_nsmul'] at hvRep
  rw [nsmul_left_comm] at hwRep
  exact ⟨represents_unique huRep hvRep, represents_unique huRep hwRep⟩

end Sys2Proof.Machine
end

section
/-! PROOFS. The command PMUL (43_scalar_multiply.md R150-R152). -/

namespace Sys2Proof.Machine

/-! ### The outcomes of the rule -/

section
variable {S : Registers} {a : Fin 8}

theorem ruleOf_pmul_of_badModulus (d a : Fin 8) (b : Fin 16)
    (hbad : S.p.toNat % 2 = 0 ∨ S.p.toNat < 3 ∨ S.n.toNat = 0) : ruleOf (.pmul d a b) S = .error .badModulus := by
  rw [ruleOf, rulePmul]
  by_cases hmodulus : S.p.toNat % 2 = 0 ∨ S.p.toNat < 3
  · rw [checkOddModulus_eq_error hmodulus]
    rfl
  · rw [checkOddModulus_eq_ok.mpr hmodulus, if_pos (by omega)]
    rfl

section
variable (hgood : ¬(S.p.toNat % 2 = 0 ∨ S.p.toNat < 3 ∨ S.n.toNat = 0))
include hgood

/-- Past the two modulus checks PMUL loads its point. -/
theorem ruleOf_pmul_of_goodModulus (d : Fin 8) (b : Fin 16) :
    ruleOf (.pmul d a b) S =
      (S.loadPoint a).bind fun pt => (scalarMultiply S.curve S.n.toNat S.v[b].toNat pt).map (.point d) := by
  rw [ruleOf, rulePmul, checkOddModulus_eq_ok.mpr (by omega), if_neg (by omega)]
  cases S.loadPoint a with
  | error e => rfl
  | ok pt => exact bind_pure_comp (Commit.point d) (scalarMultiply S.curve S.n.toNat S.v[b].toNat pt)

theorem ruleOf_pmul_of_operandRange (d : Fin 8) (b : Fin 16) (ha : ¬(S.point a).reduced S.curve) :
    ruleOf (.pmul d a b) S = .error .operandRange := by
  rw [ruleOf_pmul_of_goodModulus hgood, loadPoint_eq_error ha]
  rfl

/-- Past its checks PMUL answers what `scalarMultiply` answers for the point (R151). -/
theorem ruleOf_pmul (d : Fin 8) (b : Fin 16) (ha : (S.point a).reduced S.curve) :
    ruleOf (.pmul d a b) S = (scalarMultiply S.curve S.n.toNat S.v[b].toNat (S.point a)).map (.point d) := by
  rw [ruleOf_pmul_of_goodModulus hgood, loadPoint_eq_ok ha]
  rfl

end

end

/-! ### Completion from the outcome of `scalarMultiply` -/

section
variable {s : State} {w : Word} {S : Registers} {k : Nat} {a : Fin 8} {b : Fin 16} (d : Fin 8)
  (he : s.engine = .busy w S k) (hgood : ¬(S.p.toNat % 2 = 0 ∨ S.p.toNat < 3 ∨ S.n.toNat = 0))
  (ha : (S.point a).reduced S.curve)
include he hgood ha

theorem exec_pmul_of_scalarMultiply_eq_error {e : CommandError}
    (h : scalarMultiply S.curve S.n.toNat S.v[b].toNat (S.point a) = .error e) :
    exec (.pmul d a b) s = .next (s.failed e) := by
  refine exec_of_ruleOf_eq_error he ?_
  rw [ruleOf_pmul hgood d b ha, h]
  rfl

theorem exec_pmul_of_scalarMultiply_eq_ok {r : Point}
    (h : scalarMultiply S.curve S.n.toNat S.v[b].toNat (S.point a) = .ok r) :
    exec (.pmul d a b) s = .next (s.finished (s.regs.writePoint d r)) := by
  rw [exec_of_busy _ he, ruleOf_pmul hgood d b ha, h]
  rfl

end

/-! ### Commands -/

/-- Settles O28: the checks, then the outcome of `scalarMultiply`. -/
theorem pmulChecksThenMultiplies : Obligations.PmulChecksThenMultiplies := by
  intro d a b s w S k he P N n pt bad
  refine ⟨encode_and_mask (.pmul d a b) ⟨.PMUL, 0x00000012, 0xFFF088FF⟩ (by decide) rfl,
    fun hbad => exec_of_ruleOf_eq_error he (ruleOf_pmul_of_badModulus d a b hbad),
    fun hgood hrange => exec_of_ruleOf_eq_error he (ruleOf_pmul_of_operandRange hgood d b hrange),
    fun hgood hpt hshort => exec_pmul_of_scalarMultiply_eq_ok d he hgood hpt (scalarMultiply_shortcut hshort),
    fun hgood hpt hn hoff => ?_,
    fun hgood hpt e h => exec_pmul_of_scalarMultiply_eq_error d he hgood hpt h,
    fun hgood hpt r h => exec_pmul_of_scalarMultiply_eq_ok d he hgood hpt h⟩
  have hne : pt ≠ .identity := fun hO => by simp [hO] at hoff
  obtain ⟨hmodulus, horder⟩ : ¬(P % 2 = 0 ∨ P < 3) ∧ N ≠ 0 := by omega
  have hinvalid := invalidPointExactlyWhenOffTheCurve S.curve N n pt (not_lt.mp fun h => hmodulus (.inr h))
    (Nat.mod_two_ne_zero.mp fun h => hmodulus (.inl h)) (Nat.one_le_iff_ne_zero.mpr horder)
  exact exec_pmul_of_scalarMultiply_eq_error d he hgood hpt (hinvalid.mpr ⟨hne, hoff, hn⟩)

/-- Settles O29: j iterations of the loop reach the j-th points, and its end or the next iteration's error is PMUL's. -/
theorem pmulRunsOverTheBitsOfTheScalar : Obligations.PmulRunsOverTheBitsOfTheScalar := by
  intro d a b s w S k acc addend j he c n hodd hthree hreduced hpt horder hn hacc haddend hfollows
  have hgood : ¬(S.p.toNat % 2 = 0 ∨ S.p.toNat < 3 ∨ S.n.toNat = 0) := by omega
  have hloop (hj : j ≤ bitlen n) : scalarMultiply c S.n.toNat n (S.point a) =
      doubleAndAdd c (bitlen (n / 2 ^ j)) (n / 2 ^ j) (acc j) (addend j) := by
    rw [scalarMultiply_eq_doubleAndAdd hn hpt, ← hacc, ← haddend]
    exact doubleAndAdd_of_followsLoop hj hfollows
  have hfail {e : CommandError} (hj : j < bitlen n)
      (hstep : doubleAndAddStep c (n / 2 ^ j) (acc j) (addend j) = .error e) :
      exec (.pmul d a b) s = .next (s.failed e) :=
    exec_pmul_of_scalarMultiply_eq_error d he hgood hreduced
      ((hloop hj.le).trans (doubleAndAdd_of_step_eq_error (lt_bitlen_iff.mp hj) hstep))
  simp only [Nat.testBit_eq_decide_div_mod_eq, decide_eq_true_eq]
  refine ⟨fun hj => ?_, fun e hj hbit hsum => hfail hj (doubleAndAddStep_eq_error_iff.mpr (.inl ⟨hbit, hsum⟩)),
    fun e r hj hsum hdouble =>
      hfail hj (doubleAndAddStep_eq_error_iff.mpr (.inr ⟨fun hbit => ⟨r, hsum hbit⟩, hdouble⟩))⟩
  have hdone : n / 2 ^ j = 0 := not_ne_iff.mp fun h => (lt_bitlen_iff.mpr h).ne hj
  refine exec_pmul_of_scalarMultiply_eq_ok d he hgood hreduced ((hloop hj.le).trans ?_)
  rw [hdone, doubleAndAdd_zero]

end Sys2Proof.Machine
end

section
/-! PROOFS. The command NOP (44_system.md R160). -/

namespace Sys2Proof.Machine

/-- STATUS = 0 means that each of the flags a completion with OK keeps is 0. -/
theorem keptFlags_of_statusWord_eq_zero {s : State} (h : s.statusWord = 0) :
    s.err = false ∧ s.oc = false ∧ s.werr = false := by
  have hsum := statusWord_toNat s
  rw [h, BitVec.ofNat_eq_ofNat, BitVec.toNat_zero] at hsum
  simp only [← Bool.toNat_eq_zero]
  omega

/-- Completing with OK leaves DONE as the only new bit of STATUS. -/
theorem statusWord_finished_toNat (s : State) (r : Registers) :
    (s.finished r).statusWord.toNat = 2 + 4 * s.err.toNat + 8 * s.oc.toNat + 16 * s.werr.toNat := by
  have hidle : (s.finished r).busy = false := (State.busy_eq_false_iff _).mpr rfl
  simp [statusWord_toNat, hidle, Code.number]

theorem exec_nop_of_busy {s : State} {w : Word} {S : Registers} {k : Nat} (he : s.engine = .busy w S k) :
    exec .nop s = .next (s.finished s.regs) := by
  rw [exec_of_busy _ he, ruleOf, ruleNop, State.complete_ok, State.completeOk_nothing]

/-- Settles O19: the word 0 is NOP's encoding, and its completion commits nothing and sets only DONE of STATUS = 0. -/
theorem nopOnlyCompletes : Obligations.NopOnlyCompletes := by
  have hword : encode .nop = 0 := by decide
  refine ⟨fun w => hword ▸ decode_eq_ok_iff, fun s w S k he => exec_nop_of_busy he, fun s k hstatus => ?_⟩
  refine ⟨_, exec_nop_of_busy (s.accept_engine 0 k), ?_⟩
  obtain ⟨herr, hoc, hwerr⟩ := keptFlags_of_statusWord_eq_zero hstatus
  apply BitVec.eq_of_toNat_eq
  simp [statusWord_finished_toNat, herr, hoc, hwerr]

end Sys2Proof.Machine
end

section
/-! PROOFS. Completion of commands and progress of steps (60_exceptions.md R172-R174, R179). -/

namespace Sys2Proof.Machine

/-- A success writes the registers and OC through its commit, and otherwise the completion fields only. -/
theorem State.completeOk_frame (s : State) (c : Commit) :
    s.completeOk c = { s with
      regs := (s.completeOk c).regs, oc := (s.completeOk c).oc, ecode := .ok, done := true, engine := .idle } := by
  cases c <;> rfl

/-- Settles O30: an error is the completion `failed`, and a success changes no more than the frame of its commit. -/
theorem commandsCompleteAllOrNothing : Obligations.CommandsCompleteAllOrNothing := by
  intro i s
  rcases exec_cases i s with ⟨e, -, hexec⟩ | ⟨c, -, -, hexec⟩
  · exact .inl ⟨e, hexec⟩
  · exact .inr ⟨_, _, hexec.trans (congrArg _ (s.completeOk_frame c))⟩

/-- Settles O52: of the four kinds of steps, three name their next state, and the fourth is a command, which completes. -/
theorem everyStepGoesOn : Obligations.EveryStepGoesOn := by
  intro s
  rcases step_cases s with ⟨-, hs⟩ | ⟨w, S, k, -, -, hs⟩ | ⟨w, S, k, i, -, -, -, hs⟩ | ⟨w, S, k, e, -, -, -, hs⟩
  · exact ⟨_, hs⟩
  · exact ⟨_, hs⟩
  · exact ⟨_, hs.trans (exec_eq_complete i s)⟩
  · exact ⟨_, hs⟩

end Sys2Proof.Machine
end

section
/-! PROOFS. The resets (70_reset_and_hazards.md R190-R192) and the end of every accepted command (R203). -/

namespace Sys2Proof.Machine

variable {s : State} {w : Word}

/-! ### Resets -/

/-- Settles O47: the host's operation is `hardReset`, which keeps only the host and the draw counter. -/
theorem hardResetClearsTheBlock : Obligations.HardResetClearsTheBlock := by
  intro s hop hturn
  rw [step_of_hostsTurn hturn hop]
  rfl

theorem ctrlWrite_of_reset (hbit : w.getLsbD 0 = true) : s.ctrlWrite w = { s.softReset with ie := w.getLsbD 1 } := by
  rw [State.ctrlWrite, if_pos hbit]

theorem ctrlWrite_of_not_reset (hbit : w.getLsbD 0 = false) : s.ctrlWrite w = { s with ie := w.getLsbD 1 } := by
  rw [State.ctrlWrite, if_neg (ne_true_of_eq_false hbit)]

theorem softReset_statusWord (s : State) : s.softReset.statusWord = 0 := by
  have hidle : s.softReset.busy = false := (State.busy_eq_false_iff _).mpr rfl
  simp [State.statusWord, hidle, Code.number]

/-- Settles O42: bit 0 chooses between the soft reset, which clears STATUS and so lowers IRQ, and the IE write alone. -/
theorem ctrlWriteResetsSoftly : Obligations.CtrlWriteResetsSoftly := by
  intro s w
  rw [busWrite_ctrl]
  refine ⟨fun hbit => ?_, ctrlWrite_of_not_reset⟩
  rw [ctrlWrite_of_reset hbit]
  exact ⟨rfl, softReset_statusWord s, irq_of_done_eq_false rfl⟩

/-! ### A command in flight comes nearer to its end -/

/-- While BUSY a bus write leaves the command in flight or aborts it. -/
theorem busWrite_busy_engine (hbusy : s.busy = true) (off : Offset) (w : Word) :
    (s.busWrite off w).engine = .idle ∨ (s.busWrite off w).engine = s.engine := by
  rcases busWrite_busy_cases hbusy off w with ⟨-, hw⟩ | hw | hw | hw
  · rw [hw]
    cases hbit : w.getLsbD 0 with
    | true => exact .inl (by rw [ctrlWrite_of_reset hbit, State.softReset_engine])
    | false => exact .inr (by rw [ctrlWrite_of_not_reset hbit])
  all_goals exact .inr (by simp [hw])

/-- While BUSY a host operation leaves the command in flight or aborts it. -/
theorem hostOp_busy_engine (hbusy : s.busy = true) (op : HostOp) :
    (s.hostOp op).engine = .idle ∨ (s.hostOp op).engine = s.engine := by
  rcases hostOp_cases op s with ⟨host, h⟩ | ⟨off, data, host, -, h⟩ | ⟨-, h⟩
  · exact .inr (by rw [h])
  · rw [h]
    exact busWrite_busy_engine hbusy off (data.eval s.host.last)
  · exact .inl (by rw [h, State.hardReset_engine])

/-- The engine's turn ends its command, also one whose word does not decode (log 10). -/
theorem step_ends_of_turn {S : Registers} {k : Nat} (he : s.engine = .busy w S k)
    (hturn : k = 0 ∨ s.nextHostOp = none) : ∃ t, step s = .next t ∧ t.engine = .idle := by
  cases hdecode : decode w with
  | ok i =>
    obtain ⟨t, hexec, hidle, -, -⟩ := exec_completes i s
    exact ⟨t, (step_of_turn he hturn hdecode).trans hexec, hidle⟩
  | error e => exact ⟨s.failed .illegalCommand, by simp [step, he, hturn, hdecode], rfl⟩

/-- With delay left, a step ends the command or brings it one host step nearer to its completion. -/
theorem step_ends_or_ticks {S : Registers} {k : Nat} (he : s.engine = .busy w S (k + 1)) :
    ∃ t, step s = .next t ∧ (t.engine = .idle ∨ t.engine = .busy w S k) := by
  cases hop : s.nextHostOp with
  | none =>
    obtain ⟨t, hstep, hidle⟩ := step_ends_of_turn he (.inr hop)
    exact ⟨t, hstep, .inl hidle⟩
  | some op =>
    have hturn : s.hostsTurn = true := by simp [State.hostsTurn, he]
    have hbusy : s.turn.busy = true := s.turn_busy.trans (s.busy_eq_true_iff.mpr ⟨w, S, k + 1, he⟩)
    have hengine : s.turn.engine = .busy w S k := by rw [State.turn, he, Engine.tick_busy]
    exact ⟨_, step_of_hostsTurn hturn hop, hengine ▸ hostOp_busy_engine hbusy op⟩

theorem leadsTo_one {t : State} (hstep : step s = .next t) : leadsTo 1 s t :=
  leadsTo_succ.mpr ⟨t, hstep, leadsTo_zero.mpr rfl⟩

/-- Settles O53: by induction on the delay, which each step lowers unless it ends the command. -/
theorem acceptedCommandsEnd : Obligations.AcceptedCommandsEnd := by
  intro s w S k he
  induction k generalizing s with
  | zero =>
    obtain ⟨t, hstep, hidle⟩ := step_ends_of_turn he (.inl rfl)
    exact ⟨1, t, by omega, by omega, leadsTo_one hstep, hidle⟩
  | succ k ih =>
    obtain ⟨u, hstep, hidle | hbusy⟩ := step_ends_or_ticks he
    · exact ⟨1, u, by omega, by omega, leadsTo_one hstep, hidle⟩
    · obtain ⟨n, t, -, hn, hrun, hidle⟩ := ih u hbusy
      exact ⟨n + 1, t, by omega, by omega, leadsTo_succ.mpr ⟨u, hstep, hrun⟩, hidle⟩

end Sys2Proof.Machine
end
